-- ==== Sys2Proof/Word.lean ====
section
/-! DEFINITION. The plain data types of the block: the 64-bit word, register and slot indices, the
32-bit instruction word and the text of a line (00_scope.md R5 to R8, 30_encoding.md R57, R62). -/

namespace Sys2Proof

/-- A register value, a memory word, a byte address or a program counter: 64 bits (R5, R7, R8). -/
abbrev Word := BitVec 64

/-- A register index 0..31; index 31 is the zero register (R6, R57). -/
abbrev RegIdx := BitVec 5

/-- A data-memory word-slot index, byte address / 8: one of 2^61 (R7, R41). -/
abbrev Slot := BitVec 61

/-- An instruction word of the binary layout (R62). -/
abbrev InstrWord := BitVec 32

/-- A line of assembler text, or the text of a comment, as its characters (R57, R71). -/
abbrev Text := List Char

end Sys2Proof
end

