-- ==== Sys2Proof/Syntax.lean ====
section
/-! DEFINITION. The decoded instruction form, which is normative (30_encoding.md R56, D2). Each
immediate has a type that holds exactly its legal range (R58, R60), so an unvalidated instruction
cannot be written down. -/

namespace Sys2Proof

/-- The eleven entries of the instruction set, closed (R2, R56). -/
inductive Instr where
  /-- ADD Rd, Rn, Rm (R97). -/
  | add (rd rn rm : RegIdx)
  /-- SUB Rd, Rn, Rm (R98). -/
  | sub (rd rn rm : RegIdx)
  /-- ADDI Rd, Rn, imm12, unsigned (R99). -/
  | addi (rd rn : RegIdx) (imm : BitVec 12)
  /-- SUBI Rd, Rn, imm12, unsigned (R100). -/
  | subi (rd rn : RegIdx) (imm : BitVec 12)
  /-- LDUR Rt, [Rn, off9], a signed byte offset (R103). -/
  | ldur (rt rn : RegIdx) (off : BitVec 9)
  /-- STUR Rt, [Rn, off9], a signed byte offset (R104). -/
  | stur (rt rn : RegIdx) (off : BitVec 9)
  /-- B imm26, a signed slot offset (R107). -/
  | b (imm : BitVec 26)
  /-- CBZ Rt, imm19, a signed slot offset (R108). -/
  | cbz (rt : RegIdx) (imm : BitVec 19)
  /-- CBNZ Rt, imm19, a signed slot offset (R109). -/
  | cbnz (rt : RegIdx) (imm : BitVec 19)
  /-- NONE, the halt marker (R112). -/
  | none
  /-- COMMENT text, which the block never reads (R57, R113). -/
  | comment (text : Text)
  deriving DecidableEq, Repr

end Sys2Proof
end

