-- ==== Sys2Proof/Decode.lean ====
section
/-! DEFINITION. The 32-bit binary layout (30_encoding.md section 2): the opcode map as rows of mask and
pattern (R64), the fields (R62, R63), the decoder, total on all words and rejecting by name (R66, R67),
and the encoder. The layout is the spec's own choice (D3), PRESUMED there from LEGv8 (log entry 1). -/

namespace Sys2Proof

/-- The ten rows of the opcode map that have a word (R64). -/
inductive Op where
  | add | sub | addi | subi | ldur | stur | b | cbz | cbnz | none
  deriving DecidableEq, Repr

/-- One row of the opcode map: a word `w` is the instruction when `w & mask = pattern` (R64). -/
structure OpRow where
  op : Op
  pattern : InstrWord
  mask : InstrWord
  deriving DecidableEq, Repr

/-- A word matches a row (R64). -/
def OpRow.accepts (r : OpRow) (w : InstrWord) : Bool := w &&& r.mask == r.pattern

/-- The opcode map of R64, in its order. -/
def opRows : List OpRow :=
  [ ⟨.add,  0x8B000000#32, 0xFFE0FC00#32⟩,
    ⟨.sub,  0xCB000000#32, 0xFFE0FC00#32⟩,
    ⟨.addi, 0x91000000#32, 0xFFC00000#32⟩,
    ⟨.subi, 0xD1000000#32, 0xFFC00000#32⟩,
    ⟨.ldur, 0xF8400000#32, 0xFFE00C00#32⟩,
    ⟨.stur, 0xF8000000#32, 0xFFE00C00#32⟩,
    ⟨.b,    0x14000000#32, 0xFC000000#32⟩,
    ⟨.cbz,  0xB4000000#32, 0xFF000000#32⟩,
    ⟨.cbnz, 0xB5000000#32, 0xFF000000#32⟩,
    ⟨.none, 0x00000000#32, 0xFFFFFFFF#32⟩ ]

/-- The row a word matches; the rows are pairwise disjoint, so the order does not matter (R64). -/
def opOf (w : InstrWord) : Option Op := (opRows.find? (fun r => r.accepts w)).map OpRow.op

/-- Rd (R and I format) or Rt (D and CB format): bits [4:0] (R62). -/
def fieldRd (w : InstrWord) : RegIdx := w.extractLsb' 0 5

/-- Rn: bits [9:5] (R62). -/
def fieldRn (w : InstrWord) : RegIdx := w.extractLsb' 5 5

/-- Rm of the R format: bits [20:16] (R62). -/
def fieldRm (w : InstrWord) : RegIdx := w.extractLsb' 16 5

/-- shamt of the R format, reserved: bits [15:10] (R62, R66). -/
def fieldShamt (w : InstrWord) : BitVec 6 := w.extractLsb' 10 6

/-- op of the D format, reserved: bits [11:10] (R62, R66). -/
def fieldOp (w : InstrWord) : BitVec 2 := w.extractLsb' 10 2

/-- The 11-bit opcode field of the R and D formats: bits [31:21] (R62). -/
def fieldOpcode11 (w : InstrWord) : BitVec 11 := w.extractLsb' 21 11

/-- imm12 of the I format: bits [21:10] (R62, R63). -/
def fieldImm12 (w : InstrWord) : BitVec 12 := w.extractLsb' 10 12

/-- off9 of the D format: bits [20:12] (R62, R63). -/
def fieldOff9 (w : InstrWord) : BitVec 9 := w.extractLsb' 12 9

/-- imm26 of the B format: bits [25:0] (R62, R63). -/
def fieldImm26 (w : InstrWord) : BitVec 26 := w.extractLsb' 0 26

/-- imm19 of the CB format: bits [23:5] (R62, R63). -/
def fieldImm19 (w : InstrWord) : BitVec 19 := w.extractLsb' 5 19

/-- Why a word is ILLEGAL (R66, R67). Each carries the word. -/
inductive Illegal where
  /-- An ADD or SUB opcode with a non-zero shamt (R66). -/
  | reservedShamt (w : InstrWord)
  /-- An LDUR or STUR opcode with a non-zero op (R66). -/
  | reservedOp (w : InstrWord)
  /-- Any other word that matches no row (R67). -/
  | noRow (w : InstrWord)
  deriving DecidableEq, Repr

/-- The word an ILLEGAL entry stands for (R67). -/
def Illegal.word : Illegal → InstrWord
  | .reservedShamt w => w
  | .reservedOp w => w
  | .noRow w => w

/-- Names the reason for a word that matches no row (R66, R67). -/
def reject (w : InstrWord) : Illegal :=
  if fieldOpcode11 w = 0x458#11 ∨ fieldOpcode11 w = 0x658#11 then .reservedShamt w
  else if fieldOpcode11 w = 0x7C2#11 ∨ fieldOpcode11 w = 0x7C0#11 then .reservedOp w
  else .noRow w

/-- The decoder of the binary interface, total on all words (R64, R68). -/
def decode (w : InstrWord) : Except Illegal Instr :=
  match opOf w with
  | some .add => .ok (.add (fieldRd w) (fieldRn w) (fieldRm w))
  | some .sub => .ok (.sub (fieldRd w) (fieldRn w) (fieldRm w))
  | some .addi => .ok (.addi (fieldRd w) (fieldRn w) (fieldImm12 w))
  | some .subi => .ok (.subi (fieldRd w) (fieldRn w) (fieldImm12 w))
  | some .ldur => .ok (.ldur (fieldRd w) (fieldRn w) (fieldOff9 w))
  | some .stur => .ok (.stur (fieldRd w) (fieldRn w) (fieldOff9 w))
  | some .b => .ok (.b (fieldImm26 w))
  | some .cbz => .ok (.cbz (fieldRd w) (fieldImm19 w))
  | some .cbnz => .ok (.cbnz (fieldRd w) (fieldImm19 w))
  | some .none => .ok .none
  | none => .error (reject w)

/-- R format: opcode, Rm, shamt = 0, Rn, Rd (R62, R66). -/
def encodeR (opcode : BitVec 11) (rd rn rm : RegIdx) : InstrWord :=
  opcode ++ rm ++ 0#6 ++ rn ++ rd

/-- I format: opcode, imm12, Rn, Rd (R62). -/
def encodeI (opcode : BitVec 10) (rd rn : RegIdx) (imm : BitVec 12) : InstrWord :=
  opcode ++ imm ++ rn ++ rd

/-- D format: opcode, off9, op = 00, Rn, Rt (R62, R66). -/
def encodeD (opcode : BitVec 11) (rt rn : RegIdx) (off : BitVec 9) : InstrWord :=
  opcode ++ off ++ 0#2 ++ rn ++ rt

/-- CB format: opcode, imm19, Rt (R62). -/
def encodeCB (opcode : BitVec 8) (rt : RegIdx) (imm : BitVec 19) : InstrWord :=
  opcode ++ imm ++ rt

/-- The word of an instruction in an image of words, from the opcode values of R64. A comment has no
word of its own: an image holds 0x00000000 for it and loses its text (R65, D4). -/
def encode : Instr → InstrWord
  | .add rd rn rm => encodeR 0x458#11 rd rn rm
  | .sub rd rn rm => encodeR 0x658#11 rd rn rm
  | .addi rd rn imm => encodeI 0x244#10 rd rn imm
  | .subi rd rn imm => encodeI 0x344#10 rd rn imm
  | .ldur rt rn off => encodeD 0x7C2#11 rt rn off
  | .stur rt rn off => encodeD 0x7C0#11 rt rn off
  | .b imm => 0x05#6 ++ imm
  | .cbz rt imm => encodeCB 0xB4#8 rt imm
  | .cbnz rt imm => encodeCB 0xB5#8 rt imm
  | .none => 0#32
  | .comment _ => 0#32

/-- What an image of words keeps of an instruction: a comment comes back as NONE (R65). -/
def Instr.imaged : Instr → Instr
  | .comment _ => .none
  | .add rd rn rm => .add rd rn rm
  | .sub rd rn rm => .sub rd rn rm
  | .addi rd rn imm => .addi rd rn imm
  | .subi rd rn imm => .subi rd rn imm
  | .ldur rt rn off => .ldur rt rn off
  | .stur rt rn off => .stur rt rn off
  | .b imm => .b imm
  | .cbz rt imm => .cbz rt imm
  | .cbnz rt imm => .cbnz rt imm
  | .none => .none

/-- The 32-bit word of an opcode-table row given as `nbits` bits, the bits above them zero. The layout
is one 32-bit word and has no byte order (R45, R62), so the word is given to the decoder as it is. -/
def tableWord (nbits w : Nat) : InstrWord := BitVec.ofNat 32 (w % 2 ^ nbits)

/-- What the decoder reads from an opcode-table word; `none` where it refuses. -/
def decodeTableWord (nbits w : Nat) : Option Instr :=
  match decode (tableWord nbits w) with
  | .ok i => some i
  | .error _ => none

end Sys2Proof
end

