-- ==== Sys2Proof/Machine/Bits.lean ====
section
/-! DEFINITION. The number notation of 00_scope.md section 4: exact integer arithmetic and the explicit
narrowing to 64 bits (R13), and the signed and unsigned readings of a field (R14). -/

namespace Sys2Proof.Machine

/-- `u64(v)`: the 64-bit value congruent to `v` mod 2^64; wraps, never saturates (R13). -/
def u64 (v : Int) : Word := BitVec.ofInt 64 v

/-- A 64-bit value read as unsigned (R13). -/
def uval (v : Word) : Int := (v.toNat : Int)

/-- `s64(v)`: the two's-complement signed reading of a 64-bit value (R13). -/
def s64 (v : Word) : Int := v.toInt

/-- `zext_N(v)`: a field read as unsigned (R14). -/
def zext {n : Nat} (v : BitVec n) : Int := (v.toNat : Int)

/-- `sext_N(v)`: a field read as two's complement (R14). -/
def sext {n : Nat} (v : BitVec n) : Int := v.toInt

end Sys2Proof.Machine
end

