-- ==== Sys2Proof/Config.lean ====
section
/-! DEFINITION. The parameters of 00_scope.md section 3. `PROG_LEN` (R9) is the length of the program
store and `MAX_ITER` (R10) an argument of the batch driver, so neither is a constant here. The spec
leaves no value free, so this file holds no opaque constant. -/

namespace Sys2Proof.Config

/-- Storage registers X0 to X30 (R6). -/
def storageRegisters : Nat := 31

/-- The index of the zero register (R6). -/
def zeroRegister : RegIdx := 31#5

/-- Bytes of a memory word (R7). -/
def wordBytes : Nat := 8

/-- The number of word slots of the data memory, 2^61 (R7). -/
def slotCount : Nat := 2 ^ 61

/-- `ZR_MNEMONIC`, the zero register's name as canonical text writes it (R11, R21, D16). -/
def zrMnemonic : Text := ['X', 'Z', 'R']

/-- `COMMENT_MARKER`, which opens a comment line (R11, D17). -/
def commentMarker : Text := ['/', '/']

/-- White space of a line: a blank or a tab (R74).
DEDUCED (log entry 11): the trimming of R71 removes the same two characters. -/
def isBlank (c : Char) : Bool := c == ' ' || c == '\t'

end Sys2Proof.Config
end

