-- ==== Sys2Proof/Machine/State.lean ====
section
/-! DEFINITION. The state of the block (10_state.md R19), the outcomes and errors of a tick
(60_exceptions.md R119 to R124) and the state after reset (R37, R136). All plain data. -/

namespace Sys2Proof.Machine

/-- Why a tick ends in `ExecError` (R119). The state is left as it was (R91). All three are safe: the
spec gives the tick no next state. The host's ports report the same errors (R120, R121). -/
inductive Fault where
  /-- A data address that is not a multiple of 8, with the address (R120, R124). Raised by LDUR and
  STUR, and by the host's memory port. Safe. -/
  | alignmentError (addr : Word)
  /-- A register index above 31, with the index (R121, R124). Raised by the host's register port only:
  an instruction's register fields are 5 bits wide, so no tick raises it (D14). Safe. -/
  | registerError (index : Nat)
  /-- A fetched word that matches no row of the opcode map, with the word (R67, R122). Raised by the
  fetch at the binary interface. Safe (D5). -/
  | decodeError (w : InstrWord)
  deriving DecidableEq, Repr

/-- Why the model has no meaning for an instruction. No instruction of this model is refused. -/
inductive Refusal where
  /-- An arm of `exec` without a meaning. Safe; raised by no arm. -/
  | notModelled (mnemonic : String)
  deriving DecidableEq, Repr

/-- The outcome of a tick (R84, R119). -/
inductive TickOutcome where
  | keepRunning
  | shouldStop
  | execError (e : Fault)
  deriving DecidableEq, Repr

/-- The data request of a tick: `dm_op`, `dm_slot` and `dm_wdata` of R95, each present only where R95
calls it valid. A tick makes at most one request. -/
inductive DataRequest where
  | idle
  | read (slot : Slot)
  | write (slot : Slot) (data : Word)
  deriving DecidableEq, Repr

/-- The block's outputs in one step transaction (R95). -/
structure Answer where
  /-- `outcome` and `outcome_info` (R123, R124). -/
  outcome : TickOutcome
  /-- `if_index`: the instruction slot requested, equal to `pc` (R95). -/
  ifIndex : Word
  /-- The data request (R95). -/
  request : DataRequest
  deriving DecidableEq, Repr

/-- One entry of the program store: a decoded instruction, the normative form (R33, R56), or a word at
the binary interface (R62, R95 `if_instr`).
DESIGN CHOICE (log entry 2): one store may hold entries of both forms. -/
inductive Entry where
  | decoded (i : Instr)
  | word (w : InstrWord)
  deriving DecidableEq, Repr

/-- The 31 storage registers X0 to X30 (R19, R20). -/
abbrev RegFile := Vector Word 31

/-- The data memory: the slots that hold a non-zero word, with their words, slots strictly rising
(R40, R44). Whole words and no byte view, as R45 asks (log entry 5). -/
abbrev Memory := List (Nat × Word)

/-- The architectural state of R19 (the first four fields), and the model's record of the outputs. -/
structure State where
  /-- X[0] to X[30] (R19, R20). -/
  regs : RegFile
  /-- The program counter, an instruction-slot index (R26). -/
  pc : Word
  /-- The data memory M (R40). -/
  mem : Memory
  /-- The program store P; PROG_LEN is its length (R33). -/
  prog : List Entry
  /-- The block's outputs in the last step transaction that left a next state; `none` before the first.
  DESIGN CHOICE (log entry 4): the outputs of R95 are not state of R19, and no tick reads this field. -/
  answer : Option Answer
  deriving DecidableEq, Repr

/-- The state after reset: construction with no snapshot (R37, R136). Every register and the pc are 0
(D24, log entry 6), memory and the program store are empty. -/
def State.reset : State where
  regs := Vector.replicate 31 0#64
  pc := 0#64
  mem := []
  prog := []
  answer := none

end Sys2Proof.Machine
end

