-- ==== Sys2Proof/Machine/Ops.lean ====
section
/-! DEFINITION. The named operations over registers and memory, and the shared ends of a tick: fetch,
commit on success, stop without mutation, and raising an error. -/

namespace Sys2Proof.Machine

/-! Registers -/

/-- A general-register read of a register file: index 31 reads 0 (R22). -/
def RegFile.read (r : RegFile) (i : RegIdx) : Word :=
  if h : i.toNat < 31 then r[i.toNat] else 0#64

/-- A general-register write: a write to index 31 is accepted and discarded (R23). -/
def RegFile.write (r : RegFile) (i : RegIdx) (v : Word) : RegFile :=
  if h : i.toNat < 31 then r.set i.toNat v h else r

/-- `x[i]` (R15, R22). -/
def State.readReg (s : State) (i : RegIdx) : Word := s.regs.read i

/-- `x[i] <- v` (R15, R23). -/
def State.writeReg (s : State) (i : RegIdx) (v : Word) : State := { s with regs := s.regs.write i v }

/-! Memory -/

/-- `M[s]`: an absent slot reads 0 (R40). -/
def Memory.get : Memory → Nat → Word
  | [], _ => 0#64
  | (k, v) :: m, a => if a = k then v else Memory.get m a

/-- `M[s] <- v`: storing 0 removes the slot, anything else lists it in its place (R44). -/
def Memory.set : Memory → Nat → Word → Memory
  | [], a, v => if v = 0#64 then [] else [(a, v)]
  | (k, w) :: m, a, v =>
    if a < k then (if v = 0#64 then (k, w) :: m else (a, v) :: (k, w) :: m)
    else if a = k then (if v = 0#64 then m else (a, v) :: m)
    else (k, w) :: Memory.set m a v

/-- The canonical form: slots strictly rising and below 2^61, no slot listed with the 0 an absent slot
reads (R44). -/
def Memory.wf : Memory → Bool
  | [] => true
  | (k, v) :: m =>
    decide (k < Config.slotCount) && !(v == 0#64) && m.all (fun c => decide (k < c.1)) && Memory.wf m

/-- The slot a byte address names, `addr >> 3` (R41). -/
def slotOf (addr : Word) : Slot := addr.extractLsb' 3 61

/-- The alignment check, and the slot of an address that passes it (R42, R46, R102). -/
def accessSlot (addr : Word) : Except Fault Slot :=
  if addr.toNat % Config.wordBytes = 0 then .ok (slotOf addr) else .error (.alignmentError addr)

/-- `MemRead(addr, 8)` (R42). -/
def memRead (m : Memory) (addr : Word) : Except Fault Word :=
  match accessSlot addr with
  | .ok slot => .ok (m.get slot.toNat)
  | .error e => .error e

/-- `MemWrite(addr, 8, v)` (R43). -/
def memWrite (m : Memory) (addr v : Word) : Except Fault Memory :=
  match accessSlot addr with
  | .ok slot => .ok (m.set slot.toNat v)
  | .error e => .error e

/-- `get_used()`: the occupied slots, ascending (R44, D26). -/
def Memory.used (m : Memory) : List Nat := m.map Prod.fst

/-- The model's invariant: memory is in its canonical form. The rest of the state is well formed by its
types. -/
def State.wf (s : State) : Bool := s.mem.wf

/-! Fetch -/

/-- What fetch finds at `pc` (R85, R87). -/
inductive Fetched where
  | outside
  | illegal (w : InstrWord)
  | instr (i : Instr)
  deriving DecidableEq, Repr

/-- `if_valid`: 1 when the pc is below PROG_LEN (R95). -/
def State.ifValid (s : State) : Bool := decide (s.pc.toNat < s.prog.length)

/-- A program entry as the execute stage takes it: a word is decoded first (R87). -/
def Entry.fetched : Entry → Fetched
  | .decoded i => .instr i
  | .word w =>
    match decode w with
    | .ok i => .instr i
    | .error r => .illegal r.word

/-- Fetch at `pc`: nothing at or beyond PROG_LEN, else entry `P[pc]` (R85). -/
def State.fetch (s : State) : Fetched :=
  match s.prog[s.pc.toNat]? with
  | none => .outside
  | some e => e.fetched

/-! The ends of a tick -/

/-- What a completed instruction stages: its register write, its data request, whose write is its memory
write, and the pc delta (R88, R90). -/
structure Effects where
  reg : Option (RegIdx × Word)
  request : DataRequest
  delta : Int
  deriving DecidableEq, Repr

/-- The register file after a staged register write. -/
def RegFile.apply (r : RegFile) : Option (RegIdx × Word) → RegFile
  | none => r
  | some (i, v) => r.write i v

/-- The memory after a data request: only a write changes it. -/
def Memory.apply (m : Memory) : DataRequest → Memory
  | .idle => m
  | .read _ => m
  | .write slot v => m.set slot.toNat v

/-- Commit on success: the staged register write, the staged memory write and the new pc take effect
together (R89, R90), and the tick answers `KeepRunning`. -/
def State.commit (s : State) (e : Effects) : State where
  regs := s.regs.apply e.reg
  pc := u64 (uval s.pc + e.delta)
  mem := s.mem.apply e.request
  prog := s.prog
  answer := some { outcome := .keepRunning, ifIndex := s.pc, request := e.request }

/-- `ShouldStop`: no mutation of registers, pc, memory or program (R85, R86); only the model's record of
the outputs says so.
DESIGN CHOICE (log entry 3): the outcome is a next state and not a fault, since it is no error. -/
def State.stop (s : State) : State :=
  { s with answer := some { outcome := .shouldStop, ifIndex := s.pc, request := .idle } }

/-- `raise E(info)`: the tick ends in `ExecError` and writes nothing (R17, R91). There is no trap entry,
so nothing is saved and no handler is entered (R125), and no return from one (R126). -/
def raise (e : Fault) : Host.Outcome State Fault Refusal := .fault e

/-- The end of an instruction's rule: commit what it staged, or raise (R90, R91). -/
def State.complete (s : State) : Except Fault Effects → Host.Outcome State Fault Refusal
  | .ok e => .next (s.commit e)
  | .error e => raise e

end Sys2Proof.Machine
end

