-- ==== Sys2Proof/Machine/Operands.lean ====
section
/-! DEFINITION. The operand forms: a register, an immediate, base register plus byte offset
(42_load_store.md R101) and the pc-relative slot target (43_branch.md R105). -/

namespace Sys2Proof.Machine

/-- A register operand as the integer its unsigned 64-bit value is (R13, R22). -/
def State.regVal (s : State) (i : RegIdx) : Int := uval (s.readReg i)

/-- `EA(n, o)`: base register value plus signed byte offset, masked to 64 bits (R101). -/
def effectiveAddressOf (base : Word) (off : BitVec 9) : Word := u64 (uval base + sext off)

/-- The effective address of an LDUR or STUR in a state (R101). -/
def State.effectiveAddress (s : State) (rn : RegIdx) (off : BitVec 9) : Word :=
  effectiveAddressOf (s.readReg rn) off

/-- The pc-relative target `u64(pc + k)` (R89, R105). -/
def branchTarget (pc : Word) (k : Int) : Word := u64 (uval pc + k)

/-- The effects of an instruction that writes one register and goes on to the next slot. -/
def Effects.ofReg (rd : RegIdx) (v : Word) : Effects :=
  { reg := some (rd, v), request := .idle, delta := 1 }

/-- The effects of an instruction that only moves the pc. -/
def Effects.ofDelta (k : Int) : Effects := { reg := none, request := .idle, delta := k }

end Sys2Proof.Machine
end

