-- ==== Sys2Proof/Machine/Arithmetic.lean ====
section
/-! DEFINITION. ADD, SUB, ADDI and SUBI (41_arithmetic.md). Sums and differences are exact integers,
narrowed to 64 bits at the end; overflow is discarded and no flag exists (R96). -/

namespace Sys2Proof.Machine

/-- ADD: `x[d] <- u64(x[n] + x[m])` (R97). -/
def execAdd (rd rn rm : RegIdx) (s : State) : Host.Outcome State Fault Refusal :=
  s.complete (.ok (.ofReg rd (u64 (s.regVal rn + s.regVal rm))))

/-- SUB: `x[d] <- u64(x[n] - x[m])` (R98). -/
def execSub (rd rn rm : RegIdx) (s : State) : Host.Outcome State Fault Refusal :=
  s.complete (.ok (.ofReg rd (u64 (s.regVal rn - s.regVal rm))))

/-- ADDI: `x[d] <- u64(x[n] + k)`, k unsigned (R99). -/
def execAddi (rd rn : RegIdx) (imm : BitVec 12) (s : State) : Host.Outcome State Fault Refusal :=
  s.complete (.ok (.ofReg rd (u64 (s.regVal rn + zext imm))))

/-- SUBI: `x[d] <- u64(x[n] - k)`, k unsigned, the execution's formulation (R100, C2). -/
def execSubi (rd rn : RegIdx) (imm : BitVec 12) (s : State) : Host.Outcome State Fault Refusal :=
  s.complete (.ok (.ofReg rd (u64 (s.regVal rn - zext imm))))

end Sys2Proof.Machine
end

