-- ==== Sys2Proof/Machine/Flags.lean ====
section
/-! DEFINITION. The block has no flags (10_state.md R30): what other machines compute from flags is here
the test of one register against zero (43_branch.md R106), and the choice of delta it makes. -/

namespace Sys2Proof.Machine

/-- The zero condition: all 64 bits of the tested register are zero (R106). -/
def State.zeroCondition (s : State) (rt : RegIdx) : Bool := s.readReg rt == 0#64

/-- The non-zero condition (R106). -/
def State.nonZeroCondition (s : State) (rt : RegIdx) : Bool := !(s.readReg rt == 0#64)

/-- The delta of a conditional branch: its offset when taken, 1 when it falls through (R88). -/
def branchDelta (taken : Bool) (k : Int) : Int := if taken then k else 1

end Sys2Proof.Machine
end

