-- ==== Sys2Proof/Machine/Branch.lean ====
section
/-! DEFINITION. B, CBZ and CBNZ (43_branch.md): pc-relative by a signed count of instruction slots, no
link, no delay slot (R105, R110). -/

namespace Sys2Proof.Machine

/-- B: delta is the offset (R107). -/
def execB (imm : BitVec 26) (s : State) : Host.Outcome State Fault Refusal :=
  s.complete (.ok (.ofDelta (sext imm)))

/-- CBZ: taken when the tested register is zero (R108). -/
def execCbz (rt : RegIdx) (imm : BitVec 19) (s : State) : Host.Outcome State Fault Refusal :=
  s.complete (.ok (.ofDelta (branchDelta (s.zeroCondition rt) (sext imm))))

/-- CBNZ: taken when the tested register is not zero (R109). -/
def execCbnz (rt : RegIdx) (imm : BitVec 19) (s : State) : Host.Outcome State Fault Refusal :=
  s.complete (.ok (.ofDelta (branchDelta (s.nonZeroCondition rt) (sext imm))))

end Sys2Proof.Machine
end

