-- ==== Sys2Proof/Machine/LoadStore.lean ====
section
/-! DEFINITION. LDUR and STUR (42_load_store.md): one 64-bit word at an 8-byte-aligned effective
address. The alignment check comes before any access or write (R102). -/

namespace Sys2Proof.Machine

/-- LDUR: `x[t] <- MemRead(EA, 8)`, or AlignmentError with nothing changed (R103). The check is made
for the zero register as destination too. -/
def execLdur (rt rn : RegIdx) (off : BitVec 9) (s : State) : Host.Outcome State Fault Refusal :=
  s.complete
    (match accessSlot (s.effectiveAddress rn off) with
     | .ok slot => .ok { reg := some (rt, s.mem.get slot.toNat), request := .read slot, delta := 1 }
     | .error e => .error e)

/-- STUR: `MemWrite(EA, 8, x[t])`, or AlignmentError with nothing changed (R104). -/
def execStur (rt rn : RegIdx) (off : BitVec 9) (s : State) : Host.Outcome State Fault Refusal :=
  s.complete
    (match accessSlot (s.effectiveAddress rn off) with
     | .ok slot => .ok { reg := none, request := .write slot (s.readReg rt), delta := 1 }
     | .error e => .error e)

end Sys2Proof.Machine
end

