-- ==== Sys2Proof/Machine/Markers.lean ====
section
/-! DEFINITION. The halt markers NONE and COMMENT (44_halt_markers.md): the tick answers `ShouldStop`,
reads nothing, writes nothing and leaves the pc on the marker (R86). -/

namespace Sys2Proof.Machine

/-- NONE (R112). -/
def execNone (s : State) : Host.Outcome State Fault Refusal := .next s.stop

/-- COMMENT: not skipped, and its text not read (R113). -/
def execComment (_text : Text) (s : State) : Host.Outcome State Fault Refusal := .next s.stop

end Sys2Proof.Machine
end

