-- ==== Sys2Proof/Machine/Dispatch.lean ====
section
/-! DEFINITION. The dispatch of the execute stage: one rule per tag, no default arm (R87). -/

namespace Sys2Proof.Machine

def exec (i : Instr) (s : State) : Host.Outcome State Fault Refusal :=
  match i with
  | .add rd rn rm => Sys2Proof.Machine.execAdd rd rn rm s
  | .sub rd rn rm => Sys2Proof.Machine.execSub rd rn rm s
  | .addi rd rn imm => Sys2Proof.Machine.execAddi rd rn imm s
  | .subi rd rn imm => Sys2Proof.Machine.execSubi rd rn imm s
  | .ldur rt rn off => Sys2Proof.Machine.execLdur rt rn off s
  | .stur rt rn off => Sys2Proof.Machine.execStur rt rn off s
  | .b imm => Sys2Proof.Machine.execB imm s
  | .cbz rt imm => Sys2Proof.Machine.execCbz rt imm s
  | .cbnz rt imm => Sys2Proof.Machine.execCbnz rt imm s
  | .none => Sys2Proof.Machine.execNone s
  | .comment text => Sys2Proof.Machine.execComment text s

end Sys2Proof.Machine
end

