-- ==== Sys2Proof/Machine/Step.lean ====
section
/-! DEFINITION. The tick (40_execution_step.md R84, R94), one step of the machine. -/

namespace Sys2Proof.Machine

/-- `tick`: stop at `pc >= PROG_LEN` (R85), raise DecodeError for an ILLEGAL word (R67, R122), else run
the fetched instruction (R87). The halt markers are instructions of their own (R86). -/
def step (s : State) : Host.Outcome State Fault Refusal :=
  match s.fetch with
  | .outside => .next s.stop
  | .illegal w => raise (.decodeError w)
  | .instr i => exec i s

/-- The state with the table word placed where the next tick fetches: entry `pc` of the program store.
Where the store is shorter than that, it is filled up to `pc` with halt markers. It stands for the host's
load of a program (R139; log entries 7 and 17). -/
def State.withFetchWord (s : State) (nbits w : Nat) : State :=
  { s with
    prog :=
      if s.pc.toNat < s.prog.length then s.prog.set s.pc.toNat (.word (tableWord nbits w))
      else
        s.prog ++ List.replicate (s.pc.toNat - s.prog.length) (.decoded .none) ++
          [.word (tableWord nbits w)] }

end Sys2Proof.Machine
end

