-- ==== Sys2Proof/Machine/Ports.lean ====
section
/-! DEFINITION. The outputs of the transaction-level interface (40_execution_step.md R95) and the outcome
codes and payloads on it (60_exceptions.md R123, R124). The codes are the spec's own choice (D10, D11). -/

namespace Sys2Proof.Machine

/-- The 3-bit `outcome` code (R123). -/
def TickOutcome.code : TickOutcome → BitVec 3
  | .keepRunning => 0#3
  | .shouldStop => 1#3
  | .execError (.alignmentError _) => 2#3
  | .execError (.registerError _) => 3#3
  | .execError (.decodeError _) => 4#3

/-- `outcome_info`: the error payload, 0 when there is no error (R95, R124). -/
def TickOutcome.info : TickOutcome → Word
  | .keepRunning => 0#64
  | .shouldStop => 0#64
  | .execError (.alignmentError addr) => addr
  | .execError (.registerError index) => BitVec.ofNat 64 index
  | .execError (.decodeError w) => w.zeroExtend 64

/-- `dm_op`: 0 none, 1 read, 2 write (R95). -/
def DataRequest.op : DataRequest → BitVec 2
  | .idle => 0#2
  | .read _ => 1#2
  | .write _ _ => 2#2

/-- `dm_slot`, where it is valid (R95). -/
def DataRequest.slot? : DataRequest → Option Slot
  | .idle => none
  | .read slot => some slot
  | .write slot _ => some slot

/-- `dm_wdata`, where it is valid (R95). -/
def DataRequest.wdata? : DataRequest → Option Word
  | .idle => none
  | .read _ => none
  | .write _ v => some v

/-- `dm_rdata`: the word the memory returns for a read request (R95). -/
def DataRequest.rdata? (m : Memory) : DataRequest → Option Word
  | .idle => none
  | .read slot => some (m.get slot.toNat)
  | .write _ _ => none

/-- The outputs of a tick that raises: the error, the slot it stands at, and no data request (R95, R124). -/
def State.errorAnswer (s : State) (e : Fault) : Answer :=
  { outcome := .execError e, ifIndex := s.pc, request := .idle }

/-- The outputs of the step transaction at a state, whatever its outcome (R84, R95). No instruction is
refused, so the last arm is taken by no tick. -/
def State.transaction (s : State) : Option Answer :=
  match step s with
  | .next t => t.answer
  | .fault e => some (s.errorAnswer e)
  | .refused _ => none

end Sys2Proof.Machine
end

