-- ==== Sys2Proof/WellFormed.lean ====
section
/-! DEFINITION. The unvalidated instruction, as a structural parse or a snapshot record gives it, and
what makes it well formed: register indices in 0..31 and immediates in their opcode's range
(30_encoding.md R57, R58, R60). The decoded `Instr` can hold nothing else but for one thing: a comment
text that no line can carry. -/

namespace Sys2Proof

/-- The nine text mnemonics (30_encoding.md R83), by which a RangeError names its opcode (R80). -/
inductive Mnemonic where
  | add | sub | addi | subi | ldur | stur | b | cbz | cbnz
  deriving DecidableEq, Repr

/-- An instruction before validation: any natural number as a register index and any integer as an
immediate (R80, R138). -/
inductive RawInstr where
  | add (rd rn rm : Nat)
  | sub (rd rn rm : Nat)
  | addi (rd rn : Nat) (imm : Int)
  | subi (rd rn : Nat) (imm : Int)
  | ldur (rt rn : Nat) (off : Int)
  | stur (rt rn : Nat) (off : Int)
  | b (imm : Int)
  | cbz (rt : Nat) (imm : Int)
  | cbnz (rt : Nat) (imm : Int)
  | none
  | comment (text : Text)
  deriving DecidableEq, Repr

/-- The register indices an unvalidated instruction names, in field order. -/
def RawInstr.regs : RawInstr → List Nat
  | .add d n m => [d, n, m]
  | .sub d n m => [d, n, m]
  | .addi d n _ => [d, n]
  | .subi d n _ => [d, n]
  | .ldur t n _ => [t, n]
  | .stur t n _ => [t, n]
  | .b _ => []
  | .cbz t _ => [t]
  | .cbnz t _ => [t]
  | .none => []
  | .comment _ => []

/-- The immediate of an unvalidated instruction with its opcode, where it has one. -/
def RawInstr.immediate : RawInstr → Option (Mnemonic × Int)
  | .add _ _ _ => .none
  | .sub _ _ _ => .none
  | .addi _ _ k => some (.addi, k)
  | .subi _ _ k => some (.subi, k)
  | .ldur _ _ o => some (.ldur, o)
  | .stur _ _ o => some (.stur, o)
  | .b k => some (.b, k)
  | .cbz _ k => some (.cbz, k)
  | .cbnz _ k => some (.cbnz, k)
  | .none => .none
  | .comment _ => .none

/-- The legal range of each opcode's immediate, the table of R58: the least value and the first value
above the range. ADD and SUB have no immediate. -/
def Mnemonic.range : Mnemonic → Int × Int
  | .addi => (0, 4096)
  | .subi => (0, 4096)
  | .ldur => (-256, 256)
  | .stur => (-256, 256)
  | .b => (-33554432, 33554432)
  | .cbz => (-262144, 262144)
  | .cbnz => (-262144, 262144)
  | .add => (0, 0)
  | .sub => (0, 0)

/-- The immediate `k` lies in the range of the opcode `m` (R58). -/
def Mnemonic.inRange (m : Mnemonic) (k : Int) : Bool :=
  decide (m.range.1 ≤ k) && decide (k < m.range.2)

/-- An unvalidated instruction that may be committed: every register index in 0..31 (R57) and the
immediate in its range (R58). -/
def RawInstr.wellFormed (r : RawInstr) : Bool :=
  r.regs.all (fun i => decide (i ≤ 31)) &&
    match r.immediate with
    | some (m, k) => m.inRange k
    | .none => true

/-- A comment's text as a trimmed line can carry it: it does not end in white space (R71, R73).
DEDUCED (log entry 13). -/
def lineText (text : Text) : Bool :=
  match text.getLast? with
  | some c => !Config.isBlank c
  | .none => true

/-- A decoded instruction that validation admits: its registers and immediates are in range by their
types (R60), and a comment's text is one a line can carry. -/
def Instr.wellFormed : Instr → Bool
  | .add _ _ _ => true
  | .sub _ _ _ => true
  | .addi _ _ _ => true
  | .subi _ _ _ => true
  | .ldur _ _ _ => true
  | .stur _ _ _ => true
  | .b _ => true
  | .cbz _ _ => true
  | .cbnz _ _ => true
  | .none => true
  | .comment text => lineText text

end Sys2Proof
end

