-- ==== Sys2Proof/Machine/Assembler.lean ====
section
/-! DEFINITION. The assembler text of the host side: the parser and its failures, the validator and the
canonical text (30_encoding.md section 3). They define what can enter the program store. -/

namespace Sys2Proof.Machine

/-- The failures of one line (R77 to R80). None changes any state of the block (R81, R135). -/
inductive ParseError where
  /-- R77. -/
  | syntaxError
  /-- R78. -/
  | insufficientArguments
  /-- R79. -/
  | numberFormatError
  /-- The opcode and the offending value (R80). -/
  | rangeError (m : Mnemonic) (value : Int)
  deriving DecidableEq, Repr

/-- Why an unvalidated instruction is not committed: a register index above 31 (R57) or an immediate out
of its opcode's range (R58). -/
inductive Invalid where
  | registerIndex (index : Nat)
  | range (m : Mnemonic) (value : Int)
  deriving DecidableEq, Repr

/-! Validation -/

/-- The decoded form of an unvalidated instruction: each field narrowed to its width. Meant for the well
formed, whose values the narrowing keeps. -/
def narrow : RawInstr → Instr
  | .add d n m => .add (BitVec.ofNat 5 d) (BitVec.ofNat 5 n) (BitVec.ofNat 5 m)
  | .sub d n m => .sub (BitVec.ofNat 5 d) (BitVec.ofNat 5 n) (BitVec.ofNat 5 m)
  | .addi d n k => .addi (BitVec.ofNat 5 d) (BitVec.ofNat 5 n) (BitVec.ofInt 12 k)
  | .subi d n k => .subi (BitVec.ofNat 5 d) (BitVec.ofNat 5 n) (BitVec.ofInt 12 k)
  | .ldur t n o => .ldur (BitVec.ofNat 5 t) (BitVec.ofNat 5 n) (BitVec.ofInt 9 o)
  | .stur t n o => .stur (BitVec.ofNat 5 t) (BitVec.ofNat 5 n) (BitVec.ofInt 9 o)
  | .b k => .b (BitVec.ofInt 26 k)
  | .cbz t k => .cbz (BitVec.ofNat 5 t) (BitVec.ofInt 19 k)
  | .cbnz t k => .cbnz (BitVec.ofNat 5 t) (BitVec.ofInt 19 k)
  | .none => .none
  | .comment text => .comment text

/-- The validator: register indices, then the immediate's range (R58, R80). -/
def validate (r : RawInstr) : Except Invalid Instr :=
  match r.regs.find? (fun i => decide (31 < i)) with
  | some i => .error (.registerIndex i)
  | none =>
    match r.immediate with
    | some (m, k) => if m.inRange k then .ok (narrow r) else .error (.range m k)
    | none => .ok (narrow r)

/-- The record of a decoded instruction: its fields as numbers, signed where R58 reads them signed. -/
def record : Instr → RawInstr
  | .add d n m => .add d.toNat n.toNat m.toNat
  | .sub d n m => .sub d.toNat n.toNat m.toNat
  | .addi d n k => .addi d.toNat n.toNat k.toNat
  | .subi d n k => .subi d.toNat n.toNat k.toNat
  | .ldur t n o => .ldur t.toNat n.toNat o.toInt
  | .stur t n o => .stur t.toNat n.toNat o.toInt
  | .b k => .b k.toInt
  | .cbz t k => .cbz t.toNat k.toInt
  | .cbnz t k => .cbnz t.toNat k.toInt
  | .none => .none
  | .comment text => .comment text

/-! Characters and tokens -/

/-- Leading white space removed. -/
def skipBlanks (u : Text) : Text := u.dropWhile Config.isBlank

/-- Leading and trailing white space removed (R71). -/
def trim (u : Text) : Text := (skipBlanks (skipBlanks u).reverse).reverse

/-- One letter mapped to lower case; DEDUCED (log entry 11): the letters are A to Z. -/
def foldChar (c : Char) : Char :=
  if 'A' ≤ c ∧ c ≤ 'Z' then Char.ofNat (c.toNat + 32) else c

/-- Case-folding of a line (R71). -/
def fold (u : Text) : Text := u.map foldChar

/-- A letter of a folded line. -/
def isLetter (c : Char) : Bool := decide ('a' ≤ c ∧ c ≤ 'z')

/-- A decimal digit. -/
def isDigit (c : Char) : Bool := decide ('0' ≤ c ∧ c ≤ '9')

/-- The value of a run of decimal digits, read from the left. -/
def digitsValue (ds : Text) : Nat := ds.foldl (fun acc c => acc * 10 + (c.toNat - '0'.toNat)) 0

/-- A character that may stand inside a register token: not a separator and not white space.
DEDUCED (log entry 12). -/
def inRegToken (c : Char) : Bool :=
  !(Config.isBlank c || c == ',' || c == '[' || c == ']')

/-- A character that may stand inside an immediate token: the token runs up to `,`, `]`, white space or
the end of the line (R81). -/
def inImmToken (c : Char) : Bool := !(Config.isBlank c || c == ',' || c == ']')

/-- A decimal number without leading zeros. -/
def canonicalNumber (ds : Text) : Option Nat :=
  if ds.all isDigit && !ds.isEmpty && (ds.head? != some '0' || ds.length == 1) then
    some (digitsValue ds)
  else none

/-- A register token of a folded line: `x0` to `x30` without leading zeros, or the zero register's
mnemonic, index 31 (R75, D21). -/
def regToken (tok : Text) : Option Nat :=
  if tok = fold Config.zrMnemonic then some Config.zeroRegister.toNat
  else
    match tok with
    | 'x' :: ds =>
      match canonicalNumber ds with
      | some k => if k ≤ 30 then some k else none
      | none => none
    | _ => none

/-- The digits of an immediate token after its `#`: an optional `-` and one or more decimal digits
(R76, R79). -/
def immValue : Text → Option Int
  | '-' :: ds => if ds.all isDigit && !ds.isEmpty then some (-(digitsValue ds : Int)) else none
  | ds => if ds.all isDigit && !ds.isEmpty then some (digitsValue ds : Int) else none

/-- The mnemonic a leading run of letters names (R74, R83). -/
def mnemonicOf (m : Text) : Option Mnemonic :=
  if m = ['a', 'd', 'd'] then some .add
  else if m = ['s', 'u', 'b'] then some .sub
  else if m = ['a', 'd', 'd', 'i'] then some .addi
  else if m = ['s', 'u', 'b', 'i'] then some .subi
  else if m = ['l', 'd', 'u', 'r'] then some .ldur
  else if m = ['s', 't', 'u', 'r'] then some .stur
  else if m = ['b'] then some .b
  else if m = ['c', 'b', 'z'] then some .cbz
  else if m = ['c', 'b', 'n', 'z'] then some .cbnz
  else none

/-! The operands of a production, read left to right (R81). Each reader skips white space first and
answers what it read with the rest of the line. -/

/-- A register operand (R75, R77, R78). -/
def readRegister (u : Text) : Except ParseError (Nat × Text) :=
  match skipBlanks u with
  | [] => .error .insufficientArguments
  | c :: r =>
    match regToken ((c :: r).takeWhile inRegToken) with
    | some k => .ok (k, (c :: r).dropWhile inRegToken)
    | none => .error .syntaxError

/-- An immediate operand (R76, R77, R79). -/
def readImmediate (u : Text) : Except ParseError (Int × Text) :=
  match skipBlanks u with
  | [] => .error .insufficientArguments
  | c :: r =>
    if c = '#' then
      match immValue (r.takeWhile inImmToken) with
      | some k => .ok (k, r.dropWhile inImmToken)
      | none => .error .numberFormatError
    else .error .syntaxError

/-- A separator (R77, R78). -/
def readSeparator (sep : Char) (u : Text) : Except ParseError Text :=
  match skipBlanks u with
  | [] => .error .insufficientArguments
  | c :: r => if c = sep then .ok r else .error .syntaxError

/-- The `,` before a load's or store's offset: a `]` there means the offset is missing (R78, D28). -/
def readOffsetComma (u : Text) : Except ParseError Text :=
  match skipBlanks u with
  | [] => .error .insufficientArguments
  | c :: r =>
    if c = ',' then .ok r
    else if c = ']' then .error .insufficientArguments
    else .error .syntaxError

/-- Nothing but white space may follow the last operand (R77). -/
def readEnd (u : Text) : Except ParseError Unit :=
  if skipBlanks u = [] then .ok () else .error .syntaxError

/-- `reg "," reg "," reg` (R74). -/
def readThreeRegs (mk : Nat → Nat → Nat → RawInstr) (u : Text) : Except ParseError RawInstr := do
  let (d, u) ← readRegister u
  let u ← readSeparator ',' u
  let (n, u) ← readRegister u
  let u ← readSeparator ',' u
  let (m, u) ← readRegister u
  readEnd u
  return mk d n m

/-- `reg "," reg "," imm` (R74). -/
def readTwoRegsImm (mk : Nat → Nat → Int → RawInstr) (u : Text) : Except ParseError RawInstr := do
  let (d, u) ← readRegister u
  let u ← readSeparator ',' u
  let (n, u) ← readRegister u
  let u ← readSeparator ',' u
  let (k, u) ← readImmediate u
  readEnd u
  return mk d n k

/-- `reg "," "[" reg "," imm "]"` (R74). -/
def readRegAddress (mk : Nat → Nat → Int → RawInstr) (u : Text) : Except ParseError RawInstr := do
  let (t, u) ← readRegister u
  let u ← readSeparator ',' u
  let u ← readSeparator '[' u
  let (n, u) ← readRegister u
  let u ← readOffsetComma u
  let (o, u) ← readImmediate u
  let u ← readSeparator ']' u
  readEnd u
  return mk t n o

/-- `imm` (R74). -/
def readImm (mk : Int → RawInstr) (u : Text) : Except ParseError RawInstr := do
  let (k, u) ← readImmediate u
  readEnd u
  return mk k

/-- `reg "," imm` (R74). -/
def readRegImm (mk : Nat → Int → RawInstr) (u : Text) : Except ParseError RawInstr := do
  let (t, u) ← readRegister u
  let u ← readSeparator ',' u
  let (k, u) ← readImmediate u
  readEnd u
  return mk t k

/-- The production of each mnemonic, on the rest of the line (R74). -/
def readOperands : Mnemonic → Text → Except ParseError RawInstr
  | .add, u => readThreeRegs .add u
  | .sub, u => readThreeRegs .sub u
  | .addi, u => readTwoRegsImm .addi u
  | .subi, u => readTwoRegsImm .subi u
  | .ldur, u => readRegAddress .ldur u
  | .stur, u => readRegAddress .stur u
  | .b, u => readImm .b u
  | .cbz, u => readRegImm .cbz u
  | .cbnz, u => readRegImm .cbnz u

/-- The structural parse of a trimmed, folded line that is neither blank nor a comment (R74, R81). -/
def readInstruction (u : Text) : Except ParseError RawInstr :=
  match mnemonicOf (u.takeWhile isLetter) with
  | none => .error .syntaxError
  | some m =>
    match u.dropWhile isLetter with
    | [] => readOperands m []
    | c :: r => if Config.isBlank c then readOperands m (c :: r) else .error .syntaxError

/-- The validator's verdict on a parsed line (R80). A register token is never above 31 (R75), so the
first arm is taken by no line. -/
def Invalid.toParseError : Invalid → ParseError
  | .registerIndex _ => .syntaxError
  | .range m v => .rangeError m v

/-- Validation of a parsed line (R80). -/
def commitLine (r : RawInstr) : Except ParseError Instr :=
  match validate r with
  | .ok i => .ok i
  | .error e => .error e.toParseError

/-- `Parse(s)`: one line through the parse and validate path (R81). -/
def parse (line : Text) : Except ParseError Instr :=
  if trim line = [] then .ok .none
  else if Config.commentMarker.isPrefixOf (trim line) then
    .ok (.comment ((trim line).drop Config.commentMarker.length))
  else
    match readInstruction (fold (trim line)) with
    | .ok r => commitLine r
    | .error e => .error e

/-! Canonical text (R82, D19) -/

/-- The decimal digit of a number below ten. -/
def digitChar (d : Nat) : Char := Char.ofNat ('0'.toNat + d)

/-- The decimal digits of a number, most significant first, without leading zeros. The first argument
bounds the number of digits. -/
def natDigits : Nat → Nat → Text
  | 0, _ => []
  | fuel + 1, n => if n < 10 then [digitChar n] else natDigits fuel (n / 10) ++ [digitChar (n % 10)]

/-- A natural number in decimal. -/
def renderNat (n : Nat) : Text := natDigits (n + 1) n

/-- An integer in decimal, with `-` for negatives (R82). -/
def renderInt (v : Int) : Text :=
  if v < 0 then '-' :: renderNat v.natAbs else renderNat v.natAbs

/-- A register: `Xn`, or the zero register's mnemonic for index 31 (R21, R82). -/
def renderReg (i : RegIdx) : Text :=
  if i = Config.zeroRegister then Config.zrMnemonic else 'X' :: renderNat i.toNat

/-- The separator `, ` of canonical text. -/
def commaBlank : Text := [',', ' ']

/-- `Render(i)`: the one canonical text of an instruction (R82). -/
def render : Instr → Text
  | .add d n m =>
    ['a', 'd', 'd', ' '] ++ renderReg d ++ commaBlank ++ renderReg n ++ commaBlank ++ renderReg m
  | .sub d n m =>
    ['s', 'u', 'b', ' '] ++ renderReg d ++ commaBlank ++ renderReg n ++ commaBlank ++ renderReg m
  | .addi d n k =>
    ['a', 'd', 'd', 'i', ' '] ++ renderReg d ++ commaBlank ++ renderReg n ++ commaBlank ++
      '#' :: renderInt k.toNat
  | .subi d n k =>
    ['s', 'u', 'b', 'i', ' '] ++ renderReg d ++ commaBlank ++ renderReg n ++ commaBlank ++
      '#' :: renderInt k.toNat
  | .ldur t n o =>
    ['l', 'd', 'u', 'r', ' '] ++ renderReg t ++ commaBlank ++ '[' :: (renderReg n ++ commaBlank ++
      '#' :: (renderInt o.toInt ++ [']']))
  | .stur t n o =>
    ['s', 't', 'u', 'r', ' '] ++ renderReg t ++ commaBlank ++ '[' :: (renderReg n ++ commaBlank ++
      '#' :: (renderInt o.toInt ++ [']']))
  | .b k => ['b', ' ', '#'] ++ renderInt k.toInt
  | .cbz t k => ['c', 'b', 'z', ' '] ++ renderReg t ++ commaBlank ++ '#' :: renderInt k.toInt
  | .cbnz t k => ['c', 'b', 'n', 'z', ' '] ++ renderReg t ++ commaBlank ++ '#' :: renderInt k.toInt
  | .none => []
  | .comment text => Config.commentMarker ++ text

end Sys2Proof.Machine
end

