-- ==== Sys2Proof/Machine/Snapshot.lean ====
section
/-! DEFINITION. Snapshots (70_reset_and_hazards.md R138, R142, R143): the one structured record of
registers, pc, memory and program, saved and loaded. The file format is out of scope (R4). -/

namespace Sys2Proof.Machine

/-- A program entry as a snapshot records it: an unvalidated instruction, or a word of the binary
interface. -/
inductive RawEntry where
  | decoded (r : RawInstr)
  | word (w : InstrWord)
  deriving DecidableEq, Repr

/-- A snapshot as it is read: the registers' values, the pc, the memory's sparse mapping and the program
(R142). Nothing in it is checked yet. -/
structure Snapshot where
  regs : List Word
  pc : Word
  mem : List (Nat × Word)
  prog : List RawEntry
  deriving DecidableEq, Repr

/-- What the host finds where it looks for a snapshot (R143): nothing that can be read, something that is
no such record, or the record. An input from outside the machine, since the file format and its reading
are out of scope (R4; log entry 26). -/
inductive SnapshotSource where
  | unreadable
  | malformed
  | readAs (snap : Snapshot)
  deriving DecidableEq, Repr

/-- Why a snapshot is not loaded; the state before the load stays (R138, R143). -/
inductive LoadError where
  /-- The snapshot cannot be read (R143). -/
  | unreadable
  /-- What is read is no snapshot record (R143). -/
  | malformed
  /-- Not 31 register values (R138). -/
  | registerCount (n : Nat)
  /-- A program entry with a register index above 31 or an immediate out of range (R138, D29). -/
  | invalidInstr (e : Invalid)
  /-- A memory mapping that names a slot twice or beyond the last.
  DESIGN CHOICE (log entry 15): taken as a malformed snapshot (R143). Safe. -/
  | malformedMemory
  deriving DecidableEq, Repr

/-- The snapshot of a state (R142). -/
def State.save (s : State) : Snapshot where
  regs := s.regs.toList
  pc := s.pc
  mem := s.mem
  prog := s.prog.map (fun e =>
    match e with
    | .decoded i => .decoded (record i)
    | .word w => .word w)

/-- One program entry of a snapshot, validated (R138). -/
def loadEntry : RawEntry → Except LoadError Entry
  | .word w => .ok (.word w)
  | .decoded r =>
    match validate r with
    | .ok i => .ok (.decoded i)
    | .error e => .error (.invalidInstr e)

/-- The program of a snapshot; the first entry that is refused refuses it. -/
def loadProgram : List RawEntry → Except LoadError (List Entry)
  | [] => .ok []
  | r :: rs =>
    match loadEntry r with
    | .error e => .error e
    | .ok e =>
      match loadProgram rs with
      | .error e' => .error e'
      | .ok es => .ok (e :: es)

/-- A sparse mapping names no slot twice and none beyond the last (log entry 15). -/
def mappingOk : List (Nat × Word) → Bool
  | [] => true
  | (k, _) :: m => decide (k < Config.slotCount) && m.all (fun c => !(c.1 == k)) && mappingOk m

/-- The memory of a sparse mapping, in canonical form. -/
def loadMemory (m : List (Nat × Word)) : Memory := m.foldr (fun c acc => acc.set c.1 c.2) []

/-- The 31 storage registers of a snapshot (R138). -/
def loadRegs (l : List Word) : Except LoadError RegFile :=
  if h : l.length = 31 then .ok ⟨l.toArray, by simp [h]⟩ else .error (.registerCount l.length)

/-- Construction from a snapshot: the state is the snapshot's, exactly, or the snapshot is refused
(R138). No step transaction has happened yet. -/
def Snapshot.load (snap : Snapshot) : Except LoadError State :=
  match loadRegs snap.regs with
  | .error e => .error e
  | .ok regs =>
    if mappingOk snap.mem then
      match loadProgram snap.prog with
      | .error e => .error e
      | .ok prog =>
        .ok { regs := regs, pc := snap.pc, mem := loadMemory snap.mem, prog := prog, answer := none }
    else .error .malformedMemory

/-- Loading what the host finds: an I/O failure is reported (R143), a record is loaded (R138). -/
def SnapshotSource.load : SnapshotSource → Except LoadError State
  | .unreadable => .error .unreadable
  | .malformed => .error .malformed
  | .readAs snap => snap.load

end Sys2Proof.Machine
end

