-- ==== Sys2Proof/Machine/Batch.lean ====
section
/-! DEFINITION. The batch entry point (70_reset_and_hazards.md R144, R145). -/

namespace Sys2Proof.Machine

/-- How a batch run exits (R144). -/
inductive BatchExit where
  /-- `MAX_ITER` ticks ran: the run has not ended (R147). -/
  | limit
  | stopped
  /-- The error and the failing instruction, `P[pc]`. -/
  | failed (e : Fault) (entry : Option Entry)
  /-- A tick had no meaning. No instruction of this model is refused, so no run exits so. -/
  | unmodelled (r : Refusal)
  deriving DecidableEq, Repr

/-- What a batch run leaves: how it exited, the number of ticks that answered `KeepRunning` (R145, D22)
and the state. -/
structure BatchEnd where
  exit : BatchExit
  count : Nat
  state : State
  deriving DecidableEq, Repr

/-- A tick that left a next state answered `ShouldStop`. -/
def State.answeredStop (s : State) : Bool := s.answer.map Answer.outcome == some .shouldStop

/-- The loop of R144 with `left` iterations left, `n` done. -/
def batchLoop : Nat → Nat → State → BatchEnd
  | 0, n, s => { exit := .limit, count := n, state := s }
  | left + 1, n, s =>
    match step s with
    | .next t => if t.answeredStop then { exit := .stopped, count := n, state := t } else batchLoop left (n + 1) t
    | .fault e => { exit := .failed e s.prog[s.pc.toNat]?, count := n, state := s }
    | .refused r => { exit := .unmodelled r, count := n, state := s }

/-- What the batch driver reports and writes out (R144). -/
structure BatchReport where
  exit : BatchExit
  count : Nat
  result : Snapshot
  deriving DecidableEq, Repr

/-- The batch run of a state. -/
def State.batch (s : State) (maxIter : Nat) : BatchEnd := batchLoop maxIter 0 s

/-- `Batch(snapshot, MAX_ITER, out)`; a load failure stops it (R143, R144). -/
def batch (src : SnapshotSource) (maxIter : Nat) : Except LoadError BatchReport :=
  match src.load with
  | .error e => .error e
  | .ok s =>
    .ok { exit := (s.batch maxIter).exit, count := (s.batch maxIter).count,
          result := (s.batch maxIter).state.save }

end Sys2Proof.Machine
end

