-- ==== Sys2Proof/Machine/ContextRange.lean ====
section
/-! DEFINITION. The context-range computation, a pure host-side function of the occupied set
(20_memory.md R55, D26). Ranges are inclusive pairs of slot indices. The block never calls it. -/

namespace Sys2Proof.Machine

/-- The last slot index, 2^61 - 1. -/
def lastSlot : Nat := Config.slotCount - 1

/-- The slots within the radius of one slot, clamped to the slot range; empty only for a point so far
beyond the last slot that its radius does not reach it (log entry 16). -/
def aroundSlot (s radius : Nat) : Option (Nat × Nat) :=
  if s - radius ≤ min lastSlot (s + radius) then some (s - radius, min lastSlot (s + radius)) else none

/-- One more range in an ascending list of ranges, no two of which touch: it is merged with every range
it overlaps or is adjacent to. -/
def insertRange (r : Nat × Nat) : List (Nat × Nat) → List (Nat × Nat)
  | [] => [r]
  | (a, b) :: rest =>
    if r.2 + 1 < a then r :: (a, b) :: rest
    else if b + 1 < r.1 then (a, b) :: insertRange r rest
    else insertRange (min a r.1, max b r.2) rest

/-- A slot's surroundings added to the ranges so far. -/
def addAround (radius s : Nat) (ranges : List (Nat × Nat)) : List (Nat × Nat) :=
  match aroundSlot s radius with
  | some r => insertRange r ranges
  | none => ranges

/-- `ContextRanges(U, Q, R)` (R55). -/
def contextRanges (used points : List Nat) (radius : Nat) : List (Nat × Nat) :=
  (used ++ points).foldr (addAround radius) []

end Sys2Proof.Machine
end

