-- ==== Sys2Proof/Machine/HostPort.lean ====
section
/-! DEFINITION. The host's ports between ticks (70_reset_and_hazards.md R141): registers (10_state.md
R38, R39), pc, data memory (20_memory.md R42 to R44) and the program store through the parse and
validate path (10_state.md R34). A port that fails changes nothing. -/

namespace Sys2Proof.Machine

/-- `get(idx)` of the register file (R38). -/
def State.hostGetReg (s : State) (idx : Nat) : Except Fault Word :=
  if idx ≤ 31 then .ok (s.readReg (BitVec.ofNat 5 idx)) else .error (.registerError idx)

/-- `set(idx, value)` of the register file (R39). -/
def State.hostSetReg (s : State) (idx : Nat) (v : Word) : Except Fault State :=
  if idx ≤ 31 then .ok (s.writeReg (BitVec.ofNat 5 idx) v) else .error (.registerError idx)

/-- The host sets the pc to any 64-bit value (R141). -/
def State.hostSetPc (s : State) (v : Word) : State := { s with pc := v }

/-- The byte address of the pc for display, `pc × 4`: computed by callers, not stored, and read by no rule
of the block (R28). -/
def State.displayAddress (s : State) : Nat := s.pc.toNat * 4

/-- `get(byteAddr)` of the memory (R42). -/
def State.hostGetMem (s : State) (addr : Word) : Except Fault Word := memRead s.mem addr

/-- `set(byteAddr, value)` of the memory (R43). -/
def State.hostSetMem (s : State) (addr v : Word) : Except Fault State :=
  match memWrite s.mem addr v with
  | .ok m => .ok { s with mem := m }
  | .error e => .error e

/-- `get_used()` (R44). -/
def State.getUsed (s : State) : List Nat := s.mem.used

/-- Why an edit of the program commits nothing. -/
inductive EditError where
  /-- The line failed to parse or validate (R81). -/
  | line (e : ParseError)
  /-- The program has no such position.
  DESIGN CHOICE (log entry 14): the spec does not say what such an edit does. Safe. -/
  | noSuchEntry (k : Nat)
  deriving DecidableEq, Repr

/-- Appends one line to the program (R141). -/
def State.appendLine (s : State) (line : Text) : Except EditError State :=
  match parse line with
  | .ok i => .ok { s with prog := s.prog ++ [.decoded i] }
  | .error e => .error (.line e)

/-- Inserts one line before entry `k`, or after the last (R141). -/
def State.insertLine (s : State) (k : Nat) (line : Text) : Except EditError State :=
  if k ≤ s.prog.length then
    match parse line with
    | .ok i => .ok { s with prog := s.prog.insertIdx k (.decoded i) }
    | .error e => .error (.line e)
  else .error (.noSuchEntry k)

/-- Removes entry `k` (R141). -/
def State.removeLine (s : State) (k : Nat) : Except EditError State :=
  if k < s.prog.length then .ok { s with prog := s.prog.eraseIdx k } else .error (.noSuchEntry k)

/-- Replaces entry `k` by one line (R141). -/
def State.replaceLine (s : State) (k : Nat) (line : Text) : Except EditError State :=
  if k < s.prog.length then
    match parse line with
    | .ok i => .ok { s with prog := s.prog.set k (.decoded i) }
    | .error e => .error (.line e)
  else .error (.noSuchEntry k)

end Sys2Proof.Machine
end

