-- ==== Sys2Proof/Machine/Reflection.lean ====
section
/-! DEFINITION. The decoder's read-only outputs, the source's reflection surface (45_reflection.md). All
are pure functions and no tick uses them (R114). -/

namespace Sys2Proof.Machine

/-- The role of a register operand (R115). -/
inductive Role where
  | dest | source
  deriving DecidableEq, Repr

/-- `Operands(ins)`: the register operands with their roles, in field order, index 31 listed like any
other (R115, D25). -/
def operands : Instr → List (RegIdx × Role)
  | .add rd rn rm => [(rd, .dest), (rn, .source), (rm, .source)]
  | .sub rd rn rm => [(rd, .dest), (rn, .source), (rm, .source)]
  | .addi rd rn _ => [(rd, .dest), (rn, .source)]
  | .subi rd rn _ => [(rd, .dest), (rn, .source)]
  | .ldur rt rn _ => [(rt, .dest), (rn, .source)]
  | .stur rt rn _ => [(rt, .source), (rn, .source)]
  | .b _ => []
  | .cbz rt _ => [(rt, .source)]
  | .cbnz rt _ => [(rt, .source)]
  | .none => []
  | .comment _ => []

/-- The kind of a memory access (R116). -/
inductive AccessKind where
  | read | write
  deriving DecidableEq, Repr

/-- The slot an access at an address touches, `None` where it is misaligned (R116). -/
def footprintAt (addr : Word) (kind : AccessKind) : Option (Slot × AccessKind) :=
  if addr.toNat % Config.wordBytes = 0 then some (slotOf addr, kind) else none

/-- `Footprint(ins, regs)`: the memory word touched, LDUR and STUR only (R116). -/
def footprint (i : Instr) (regs : RegFile) : Option (Slot × AccessKind) :=
  match i with
  | .ldur _ rn off => footprintAt (effectiveAddressOf (regs.read rn) off) .read
  | .stur _ rn off => footprintAt (effectiveAddressOf (regs.read rn) off) .write
  | .add _ _ _ => none
  | .sub _ _ _ => none
  | .addi _ _ _ => none
  | .subi _ _ _ => none
  | .b _ => none
  | .cbz _ _ => none
  | .cbnz _ _ => none
  | .none => none
  | .comment _ => none

/-- `Target(ins, pc)`: where a taken branch goes, whether or not a condition holds (R117, D15). -/
def target (i : Instr) (pc : Word) : Option Word :=
  match i with
  | .b imm => some (branchTarget pc (sext imm))
  | .cbz _ imm => some (branchTarget pc (sext imm))
  | .cbnz _ imm => some (branchTarget pc (sext imm))
  | .add _ _ _ => none
  | .sub _ _ _ => none
  | .addi _ _ _ => none
  | .subi _ _ _ => none
  | .ldur _ _ _ => none
  | .stur _ _ _ => none
  | .none => none
  | .comment _ => none

/-- What an evaluated effect description shows, without its wording, which is out of scope (R4, R118). -/
inductive EvaluatedEffect where
  /-- The register named and the value it would get. -/
  | setsReg (rd : RegIdx) (v : Word)
  /-- The slot and the word that would be stored there. -/
  | storesWord (slot : Slot) (v : Word)
  /-- Whether the branch would be taken, and its delta in slots. -/
  | branches (taken : Bool) (delta : Int)
  /-- The misaligned effective address, flagged. -/
  | misaligned (addr : Word)
  /-- A halt marker. -/
  | stops
  deriving DecidableEq, Repr

/-- The evaluated effect, from a register and a memory snapshot: every value is the one the
instruction's rule computes, and misalignment is flagged as execution would (R118, C2). -/
def evaluatedEffect (i : Instr) (regs : RegFile) (m : Memory) : EvaluatedEffect :=
  match i with
  | .add rd rn rm => .setsReg rd (u64 (uval (regs.read rn) + uval (regs.read rm)))
  | .sub rd rn rm => .setsReg rd (u64 (uval (regs.read rn) - uval (regs.read rm)))
  | .addi rd rn imm => .setsReg rd (u64 (uval (regs.read rn) + zext imm))
  | .subi rd rn imm => .setsReg rd (u64 (uval (regs.read rn) - zext imm))
  | .ldur rt rn off =>
    match footprintAt (effectiveAddressOf (regs.read rn) off) .read with
    | some (slot, _) => .setsReg rt (m.get slot.toNat)
    | none => .misaligned (effectiveAddressOf (regs.read rn) off)
  | .stur rt rn off =>
    match footprintAt (effectiveAddressOf (regs.read rn) off) .write with
    | some (slot, _) => .storesWord slot (regs.read rt)
    | none => .misaligned (effectiveAddressOf (regs.read rn) off)
  | .b imm => .branches true (sext imm)
  | .cbz rt imm =>
    .branches (regs.read rt == 0#64) (branchDelta (regs.read rt == 0#64) (sext imm))
  | .cbnz rt imm =>
    .branches (!(regs.read rt == 0#64)) (branchDelta (!(regs.read rt == 0#64)) (sext imm))
  | .none => .stops
  | .comment _ => .stops

end Sys2Proof.Machine
end

