-- ==== Sys2Proof/Machine/Session.lean ====
section
/-! DEFINITION. The interactive entry point (70_reset_and_hazards.md R146): the host's moves between
ticks (R141), one tick at a time, each error surfaced with the state as it was. -/

namespace Sys2Proof.Machine

/-- One move of the host (R141, R146). -/
inductive HostMove where
  | getReg (idx : Nat)
  | setReg (idx : Nat) (v : Word)
  | getPc
  | setPc (v : Word)
  | getMem (addr : Word)
  | setMem (addr v : Word)
  | getUsed
  | contextRanges (points : List Nat) (radius : Nat)
  | appendLine (line : Text)
  | insertLine (k : Nat) (line : Text)
  | removeLine (k : Nat)
  | replaceLine (k : Nat) (line : Text)
  | reflect (i : Instr)
  | saveSnapshot
  | loadSnapshot (src : SnapshotSource)
  | tick
  deriving DecidableEq, Repr

/-- What the host is told. -/
inductive HostReply where
  | done
  | word (v : Word)
  | slots (l : List Nat)
  | ranges (l : List (Nat × Nat))
  | reflection (ops : List (RegIdx × Role)) (touched : Option (Slot × AccessKind))
      (goesTo : Option Word) (effect : EvaluatedEffect)
  | snapshot (snap : Snapshot)
  | ticked (a : Option Answer)
  | portError (e : Fault)
  | editError (e : EditError)
  | loadError (e : LoadError)
  deriving DecidableEq, Repr

/-- The state after a move that may fail: on failure the state before it. -/
def settle {ε : Type} (s : State) (report : ε → HostReply) : Except ε State → State × HostReply
  | .ok t => (t, .done)
  | .error e => (s, report e)

/-- The reply to a read that may fail. -/
def readReply : Except Fault Word → HostReply
  | .ok v => .word v
  | .error e => .portError e

/-- The state after a tick: a tick that raises leaves it as it was (R91). -/
def State.afterTick (s : State) : State :=
  match step s with
  | .next t => t
  | .fault _ => s
  | .refused _ => s

/-- One move of the host and what it is told (R141). A failing move leaves every piece of state unchanged
(R81, R135, R143). -/
def State.hostMove (s : State) : HostMove → State × HostReply
  | .getReg idx => (s, readReply (s.hostGetReg idx))
  | .setReg idx v => settle s .portError (s.hostSetReg idx v)
  | .getPc => (s, .word s.pc)
  | .setPc v => (s.hostSetPc v, .done)
  | .getMem addr => (s, readReply (s.hostGetMem addr))
  | .setMem addr v => settle s .portError (s.hostSetMem addr v)
  | .getUsed => (s, .slots s.getUsed)
  | .contextRanges points radius => (s, .ranges (contextRanges s.getUsed points radius))
  | .appendLine line => settle s .editError (s.appendLine line)
  | .insertLine k line => settle s .editError (s.insertLine k line)
  | .removeLine k => settle s .editError (s.removeLine k)
  | .replaceLine k line => settle s .editError (s.replaceLine k line)
  | .reflect i =>
    (s, .reflection (operands i) (footprint i s.regs) (target i s.pc) (evaluatedEffect i s.regs s.mem))
  | .saveSnapshot => (s, .snapshot s.save)
  | .loadSnapshot src => settle s .loadError src.load
  | .tick => (s.afterTick, .ticked s.transaction)

/-- An interactive session: the host's moves one after another, with what it is told (R146). -/
def State.session (s : State) : List HostMove → State × List HostReply
  | [] => (s, [])
  | m :: ms => (((s.hostMove m).1.session ms).1, (s.hostMove m).2 :: ((s.hostMove m).1.session ms).2)

end Sys2Proof.Machine
end

