-- ==== Sys2Proof/Safety.lean ====
section
/-! DEFINITION. What counts as a safe run, and the ends of a run (70_reset_and_hazards.md R147). -/

namespace Sys2Proof.Machine

/-- The outcome the last step transaction answered, where there was one (R84, R95). -/
def State.lastOutcome (s : State) : Option TickOutcome := s.answer.map Answer.outcome

/-- `s` runs to `t` by `n` ticks, each of which answers `KeepRunning` (R145). -/
inductive Runs : Nat → State → State → Prop where
  | refl (s : State) : Runs 0 s s
  | tick {n : Nat} {s t u : State} (h : step s = .next t) (k : t.lastOutcome = some .keepRunning)
      (r : Runs n t u) : Runs (n + 1) s u

/-- The tick at `s` answers `ShouldStop`: a run that reaches `s` ends normally there (R147). -/
def EndsNormally (s : State) : Prop := ∃ t, step s = .next t ∧ t.lastOutcome = some .shouldStop

/-- The tick at `s` answers `ExecError e`: a run that reaches `s` ends in failure there (R147). -/
def EndsInFailure (s : State) (e : Fault) : Prop := step s = .fault e

/-- A safe state: no run from it ends in failure. -/
def Safe (s : State) : Prop := ∀ n t e, Runs n s t → ¬ EndsInFailure t e

end Sys2Proof.Machine
end

