-- ==== Sys2Proof/Certificates/Slice0/Obligations.lean ====
section
/-! DEFINITION. The statements for the provers, each with the rule of spec/ it formalises. Register
values, addresses and the pc are compared as natural numbers mod 2^64, the spec's `u64` (00_scope.md
R13). "Unchanged memory" is said through the read of every byte address, misaligned ones included. -/

open Sys2Proof Sys2Proof.Machine

/-! ## Instructions: result, completion and frame -/

/-- ADD completes from every state: Rd gets the sum of Rn and Rm mod 2^64, both read before the write;
nothing is written when Rd is the zero register; every other register, all of memory and the program are
unchanged, and the pc goes on to the next slot (R97). -/
def Obligations.AddWritesWrappedSum : Prop :=
  ∀ (rd rn rm : RegIdx) (s : State), ∃ t, exec (.add rd rn rm) s = .next t ∧
    (rd ≠ 31#5 →
      (t.readReg rd).toNat = ((s.readReg rn).toNat + (s.readReg rm).toNat) % 2 ^ 64) ∧
    (rd = 31#5 → t.regs = s.regs) ∧
    (∀ r, r ≠ rd → t.readReg r = s.readReg r) ∧
    t.pc.toNat = (s.pc.toNat + 1) % 2 ^ 64 ∧
    (∀ a, memRead t.mem a = memRead s.mem a) ∧ t.prog = s.prog ∧
    t.lastOutcome = some .keepRunning

/-- SUB completes from every state: Rd gets Rn minus Rm mod 2^64; frame as for ADD (R98). -/
def Obligations.SubWritesWrappedDifference : Prop :=
  ∀ (rd rn rm : RegIdx) (s : State), ∃ t, exec (.sub rd rn rm) s = .next t ∧
    (rd ≠ 31#5 →
      ((t.readReg rd).toNat : Int) =
        (((s.readReg rn).toNat : Int) - (s.readReg rm).toNat) % 2 ^ 64) ∧
    (rd = 31#5 → t.regs = s.regs) ∧
    (∀ r, r ≠ rd → t.readReg r = s.readReg r) ∧
    t.pc.toNat = (s.pc.toNat + 1) % 2 ^ 64 ∧
    (∀ a, memRead t.mem a = memRead s.mem a) ∧ t.prog = s.prog ∧
    t.lastOutcome = some .keepRunning

/-- ADDI completes from every state: Rd gets Rn plus the unsigned 12-bit immediate mod 2^64; frame as for
ADD (R99). -/
def Obligations.AddiWritesSumWithUnsignedImmediate : Prop :=
  ∀ (rd rn : RegIdx) (imm : BitVec 12) (s : State), ∃ t, exec (.addi rd rn imm) s = .next t ∧
    (rd ≠ 31#5 → (t.readReg rd).toNat = ((s.readReg rn).toNat + imm.toNat) % 2 ^ 64) ∧
    (rd = 31#5 → t.regs = s.regs) ∧
    (∀ r, r ≠ rd → t.readReg r = s.readReg r) ∧
    t.pc.toNat = (s.pc.toNat + 1) % 2 ^ 64 ∧
    (∀ a, memRead t.mem a = memRead s.mem a) ∧ t.prog = s.prog ∧
    t.lastOutcome = some .keepRunning

/-- SUBI completes from every state: Rd gets Rn minus the unsigned 12-bit immediate mod 2^64, which is
also the signed addition of the negated literal; frame as for ADD (R100, C2). -/
def Obligations.SubiWritesDifferenceWithUnsignedImmediate : Prop :=
  ∀ (rd rn : RegIdx) (imm : BitVec 12) (s : State), ∃ t, exec (.subi rd rn imm) s = .next t ∧
    (rd ≠ 31#5 →
      ((t.readReg rd).toNat : Int) = (((s.readReg rn).toNat : Int) - imm.toNat) % 2 ^ 64 ∧
      ((t.readReg rd).toNat : Int) = ((s.readReg rn).toInt + -(imm.toNat : Int)) % 2 ^ 64) ∧
    (rd = 31#5 → t.regs = s.regs) ∧
    (∀ r, r ≠ rd → t.readReg r = s.readReg r) ∧
    t.pc.toNat = (s.pc.toNat + 1) % 2 ^ 64 ∧
    (∀ a, memRead t.mem a = memRead s.mem a) ∧ t.prog = s.prog ∧
    t.lastOutcome = some .keepRunning

/-- The effective address of LDUR and STUR is the base value plus the signed offset mod 2^64; STUR never
writes its base back, and LDUR writes it only as its destination (R101). -/
def Obligations.EffectiveAddressWrapsWithoutWriteback : Prop :=
  ∀ (rt rn : RegIdx) (off : BitVec 9) (s : State),
    ((s.effectiveAddress rn off).toNat : Int) = ((s.readReg rn).toNat + off.toInt) % 2 ^ 64 ∧
    (∀ t, exec (.stur rt rn off) s = .next t → t.readReg rn = s.readReg rn) ∧
    (∀ t, exec (.ldur rt rn off) s = .next t → rn ≠ rt → t.readReg rn = s.readReg rn)

/-- LDUR at an effective address that is a multiple of 8 completes: Rt gets the word there, nothing is
written when Rt is the zero register, and every other register, memory and program are unchanged; at any
other effective address it raises AlignmentError with the address, also when Rt is the zero register, and
the tick leaves the state as it was (R102, R103). -/
def Obligations.LdurLoadsAlignedWordElseRaises : Prop :=
  ∀ (rt rn : RegIdx) (off : BitVec 9) (s : State),
    ((s.effectiveAddress rn off).toNat % 8 = 0 → ∃ t, exec (.ldur rt rn off) s = .next t ∧
      (rt ≠ 31#5 → memRead s.mem (s.effectiveAddress rn off) = .ok (t.readReg rt)) ∧
      (rt = 31#5 → t.regs = s.regs) ∧
      (∀ r, r ≠ rt → t.readReg r = s.readReg r) ∧
      t.pc.toNat = (s.pc.toNat + 1) % 2 ^ 64 ∧
      (∀ a, memRead t.mem a = memRead s.mem a) ∧ t.prog = s.prog ∧
      t.lastOutcome = some .keepRunning) ∧
    ((s.effectiveAddress rn off).toNat % 8 ≠ 0 →
      exec (.ldur rt rn off) s = .fault (.alignmentError (s.effectiveAddress rn off)) ∧
      (s.fetch = .instr (.ldur rt rn off) → s.afterTick = s))

/-- STUR at an effective address that is a multiple of 8 completes, in a state with canonical memory: the
word there becomes the value of Rt, every other address reads as before, no register changes; at any other
effective address it raises AlignmentError with the address, and the tick leaves the state as it was (R102,
R104). -/
def Obligations.SturStoresAlignedWordElseRaises : Prop :=
  ∀ (rt rn : RegIdx) (off : BitVec 9) (s : State), s.wf = true →
    ((s.effectiveAddress rn off).toNat % 8 = 0 → ∃ t, exec (.stur rt rn off) s = .next t ∧
      memRead t.mem (s.effectiveAddress rn off) = .ok (s.readReg rt) ∧
      (∀ a, a ≠ s.effectiveAddress rn off → memRead t.mem a = memRead s.mem a) ∧
      t.regs = s.regs ∧
      t.pc.toNat = (s.pc.toNat + 1) % 2 ^ 64 ∧ t.prog = s.prog ∧
      t.lastOutcome = some .keepRunning) ∧
    ((s.effectiveAddress rn off).toNat % 8 ≠ 0 →
      exec (.stur rt rn off) s = .fault (.alignmentError (s.effectiveAddress rn off)) ∧
      (s.fetch = .instr (.stur rt rn off) → s.afterTick = s))

/-- B completes from every state: the pc moves by the signed 26-bit offset mod 2^64 and nothing else
changes (R107). -/
def Obligations.BranchMovesPcByItsOffset : Prop :=
  ∀ (imm : BitVec 26) (s : State), ∃ t, exec (.b imm) s = .next t ∧
    ((t.pc.toNat : Int) = (s.pc.toNat + imm.toInt) % 2 ^ 64) ∧
    t.regs = s.regs ∧ (∀ a, memRead t.mem a = memRead s.mem a) ∧ t.prog = s.prog ∧
    t.lastOutcome = some .keepRunning

/-- CBZ completes from every state: it is taken exactly when all 64 bits of Rt are zero, so always for
the zero register; else it falls through to the next slot; nothing but the pc changes (R108). -/
def Obligations.CbzBranchesExactlyOnZero : Prop :=
  ∀ (rt : RegIdx) (imm : BitVec 19) (s : State), ∃ t, exec (.cbz rt imm) s = .next t ∧
    ((s.readReg rt).toNat = 0 → (t.pc.toNat : Int) = (s.pc.toNat + imm.toInt) % 2 ^ 64) ∧
    ((s.readReg rt).toNat ≠ 0 → t.pc.toNat = (s.pc.toNat + 1) % 2 ^ 64) ∧
    (rt = 31#5 → (t.pc.toNat : Int) = (s.pc.toNat + imm.toInt) % 2 ^ 64) ∧
    t.regs = s.regs ∧ (∀ a, memRead t.mem a = memRead s.mem a) ∧ t.prog = s.prog ∧
    t.lastOutcome = some .keepRunning

/-- CBNZ completes from every state: it is taken exactly when Rt is not zero, so never for the zero
register; nothing but the pc changes (R109). -/
def Obligations.CbnzBranchesExactlyOnNonZero : Prop :=
  ∀ (rt : RegIdx) (imm : BitVec 19) (s : State), ∃ t, exec (.cbnz rt imm) s = .next t ∧
    ((s.readReg rt).toNat ≠ 0 → (t.pc.toNat : Int) = (s.pc.toNat + imm.toInt) % 2 ^ 64) ∧
    ((s.readReg rt).toNat = 0 → t.pc.toNat = (s.pc.toNat + 1) % 2 ^ 64) ∧
    (rt = 31#5 → t.pc.toNat = (s.pc.toNat + 1) % 2 ^ 64) ∧
    t.regs = s.regs ∧ (∀ a, memRead t.mem a = memRead s.mem a) ∧ t.prog = s.prog ∧
    t.lastOutcome = some .keepRunning

/-- NONE and every COMMENT complete from every state with the outcome ShouldStop: registers, pc, memory
and program are unchanged, so the pc stays on the marker and a comment is not skipped; the text makes no
difference (R86). That ShouldStop is a next state is the model's choice (log entry 3). -/
def Obligations.HaltMarkersStopWithoutMutation : Prop :=
  ∀ (text : Text) (s : State), ∃ t, exec .none s = .next t ∧ exec (.comment text) s = .next t ∧
    t.lastOutcome = some .shouldStop ∧
    t.regs = s.regs ∧ t.pc = s.pc ∧ t.mem = s.mem ∧ t.prog = s.prog

/-! ## The tick -/

/-- A tick at `pc >= PROG_LEN` answers ShouldStop and changes nothing; below PROG_LEN the instruction
fetched is the entry at index pc, and a decoded one is executed (R85). That ShouldStop is a next state is
the model's choice (log entry 3). -/
def Obligations.FetchBoundStopsElseFetchesEntry : Prop :=
  ∀ s : State,
    (s.prog.length ≤ s.pc.toNat → ∃ t, step s = .next t ∧ t.lastOutcome = some .shouldStop ∧
      t.regs = s.regs ∧ t.pc = s.pc ∧ t.mem = s.mem ∧ t.prog = s.prog) ∧
    (∀ i, s.prog[s.pc.toNat]? = some (.decoded i) → step s = exec i s) ∧
    (∀ h : s.pc.toNat < s.prog.length,
      s.fetch = (s.prog[s.pc.toNat]'h).fetched ∧ s.fetch ≠ .outside)

/-- A step runs the decoded instruction: at a decoded entry, and at a word that decodes to an
instruction, the tick is that instruction's `exec`, with nothing around it (R87). -/
def Obligations.StepRunsTheDecodedInstruction : Prop :=
  ∀ (s : State) (i : Instr),
    (s.prog[s.pc.toNat]? = some (.decoded i) → step s = exec i s) ∧
    (∀ w, s.prog[s.pc.toNat]? = some (.word w) → decode w = .ok i → step s = exec i s)

/-- A fetched word that matches no row of the opcode map raises DecodeError with the word, and the state
after the tick is the state before it (R67, R122, decision D5); the outputs of that tick are the error,
`if_index` equal to the pc and no data request (R95, the spec's own interface D9; log entries 4 and 10). -/
def Obligations.IllegalWordRaisesDecodeError : Prop :=
  ∀ (s : State) (w : InstrWord), s.prog[s.pc.toNat]? = some (.word w) →
    (∀ row ∈ opRows, w &&& row.mask ≠ row.pattern) →
    step s = .fault (.decodeError w) ∧ s.afterTick = s ∧
      s.transaction = some { outcome := .execError (.decodeError w), ifIndex := s.pc, request := .idle }

/-- A tick has one of the three outcomes: it is never refused, a next state says KeepRunning or
ShouldStop, and a fault is AlignmentError or DecodeError (R84, R119, R121). -/
def Obligations.TickOutcomesAreExactlyThree : Prop :=
  ∀ s : State,
    (∀ r, step s ≠ .refused r) ∧
    (∀ t, step s = .next t →
      t.lastOutcome = some .keepRunning ∨ t.lastOutcome = some .shouldStop) ∧
    (∀ e, step s = .fault e → (∃ a, e = .alignmentError a) ∨ (∃ w, e = .decodeError w))

/-- An instruction fails exactly when it is an LDUR or STUR whose effective address is not a multiple of
8, which AlignmentError carries; and the host's memory get and set fail so on exactly such addresses
(R120). That no instruction raises any other error follows from R119, R121 and R135, RegisterError being
out of reach by log entry 9 (DEDUCED). A fetched word of no row, which is no instruction, and the host's
register port fail otherwise, and are not spoken of here. -/
def Obligations.OnlyLoadsAndStoresRaiseAlignmentError : Prop :=
  (∀ (i : Instr) (s : State) (e : Fault), exec i s = .fault e ↔
    ∃ rt rn off, (i = .ldur rt rn off ∨ i = .stur rt rn off) ∧
      e = .alignmentError (s.effectiveAddress rn off) ∧ (s.effectiveAddress rn off).toNat % 8 ≠ 0) ∧
  (∀ (s : State) (addr v : Word) (e : Fault),
    (s.hostGetMem addr = .error e ↔ e = .alignmentError addr ∧ addr.toNat % 8 ≠ 0) ∧
    (s.hostSetMem addr v = .error e ↔ e = .alignmentError addr ∧ addr.toNat % 8 ≠ 0))

/-- Stopped and failed states repeat: after a tick that answers ShouldStop the next tick gives the same
state and answer again, and after one that raises the next tick raises the same error (R93). -/
def Obligations.StoppedAndFailedStatesRepeat : Prop :=
  ∀ s : State,
    (∀ t, step s = .next t → t.lastOutcome = some .shouldStop →
      t.regs = s.regs ∧ t.pc = s.pc ∧ t.mem = s.mem ∧ t.prog = s.prog ∧ step t = .next t) ∧
    (∀ e, step s = .fault e → s.afterTick = s ∧ step s.afterTick = .fault e)

/-- No tick writes the program store, whatever it executes (R34, R53). -/
def Obligations.ProgramStoreIsNeverWritten : Prop :=
  ∀ s t : State, step s = .next t → t.prog = s.prog

/-- The pc after a completed tick is the next slot, or the target the decoder gives for the fetched
branch; nothing else moves it (R88, R89, R110). -/
def Obligations.PcGoesToNextSlotOrBranchTarget : Prop :=
  ∀ s t : State, step s = .next t → t.lastOutcome = some .keepRunning →
    t.pc.toNat = (s.pc.toNat + 1) % 2 ^ 64 ∨
      ∃ i, s.fetch = .instr i ∧ target i s.pc = some t.pc

/-- The outputs of a tick: `if_index` is the pc, a tick that stops or raises makes no data request, and a
completed tick makes the request its instruction's footprint names, a write with the word that then
stands there (R95, the spec's own interface, D9). -/
def Obligations.TickDrivesThePortsOfItsFootprint : Prop :=
  ∀ (s : State), s.wf = true → ∃ a, s.transaction = some a ∧ a.ifIndex = s.pc ∧
    (a.outcome ≠ .keepRunning → a.request = .idle) ∧
    (∀ i, s.fetch = .instr i → a.outcome = .keepRunning →
      (footprint i s.regs = none → a.request = .idle) ∧
      (∀ slot, footprint i s.regs = some (slot, .read) → a.request = .read slot) ∧
      (∀ slot, footprint i s.regs = some (slot, .write) →
        ∃ v, a.request = .write slot v ∧ s.afterTick.mem.get slot.toNat = v))

/-- The outcome codes and payloads on the ports: 0 and 1 with payload 0, 2 with the effective address, 4
with the word zero-extended; codes 3 and 5 to 7 are produced by no tick (R123, R124; the numbers and
payloads are the spec's own decisions D10 and D11). -/
def Obligations.OutcomeCodesAndPayloads : Prop :=
  ∀ (s : State) (a : Answer), s.transaction = some a →
    (∀ t, step s = .next t → (t.lastOutcome = some .keepRunning → a.outcome.code = 0#3) ∧
      (t.lastOutcome = some .shouldStop → a.outcome.code = 1#3) ∧ a.outcome.info = 0#64) ∧
    (∀ ea, step s = .fault (.alignmentError ea) → a.outcome.code = 2#3 ∧ a.outcome.info = ea) ∧
    (∀ w, step s = .fault (.decodeError w) →
      a.outcome.code = 4#3 ∧ a.outcome.info.toNat = w.toNat) ∧
    a.outcome.code ≠ 3#3 ∧ a.outcome.code.toNat < 5

/-- No tick reads the model's record of the last outputs: ticks from states that differ only in it give
the same result (the field is no state of R19; log entry 4). -/
def Obligations.TickIgnoresTheRecordedAnswer : Prop :=
  ∀ (s : State) (a : Option Answer), step { s with answer := a } = step s

/-! ## Encoding -/

/-- The decoder follows the opcode map: a word that matches a row's mask and pattern decodes to that
instruction with the fields at their bits, and a word that matches none is rejected with the word (R62 to
R64, R67; the layout is the spec's own decision D3, the rejection D5). -/
def Obligations.DecodeFollowsTheOpcodeMap : Prop :=
  ∀ w : InstrWord,
    (w &&& 0xFFE0FC00#32 = 0x8B000000#32 → decode w =
      .ok (.add (w.extractLsb' 0 5) (w.extractLsb' 5 5) (w.extractLsb' 16 5))) ∧
    (w &&& 0xFFE0FC00#32 = 0xCB000000#32 → decode w =
      .ok (.sub (w.extractLsb' 0 5) (w.extractLsb' 5 5) (w.extractLsb' 16 5))) ∧
    (w &&& 0xFFC00000#32 = 0x91000000#32 → decode w =
      .ok (.addi (w.extractLsb' 0 5) (w.extractLsb' 5 5) (w.extractLsb' 10 12))) ∧
    (w &&& 0xFFC00000#32 = 0xD1000000#32 → decode w =
      .ok (.subi (w.extractLsb' 0 5) (w.extractLsb' 5 5) (w.extractLsb' 10 12))) ∧
    (w &&& 0xFFE00C00#32 = 0xF8400000#32 → decode w =
      .ok (.ldur (w.extractLsb' 0 5) (w.extractLsb' 5 5) (w.extractLsb' 12 9))) ∧
    (w &&& 0xFFE00C00#32 = 0xF8000000#32 → decode w =
      .ok (.stur (w.extractLsb' 0 5) (w.extractLsb' 5 5) (w.extractLsb' 12 9))) ∧
    (w &&& 0xFC000000#32 = 0x14000000#32 → decode w = .ok (.b (w.extractLsb' 0 26))) ∧
    (w &&& 0xFF000000#32 = 0xB4000000#32 → decode w =
      .ok (.cbz (w.extractLsb' 0 5) (w.extractLsb' 5 19))) ∧
    (w &&& 0xFF000000#32 = 0xB5000000#32 → decode w =
      .ok (.cbnz (w.extractLsb' 0 5) (w.extractLsb' 5 19))) ∧
    (w = 0#32 → decode w = .ok .none) ∧
    ((∀ row ∈ opRows, w &&& row.mask ≠ row.pattern) → ∃ r, decode w = .error r ∧ r.word = w)

/-- No word matches two rows of the opcode map (R64). -/
def Obligations.OpcodeRowsArePairwiseDisjoint : Prop :=
  ∀ (w : InstrWord) (r₁ r₂ : OpRow), r₁ ∈ opRows → r₂ ∈ opRows →
    r₁.accepts w = true → r₂.accepts w = true → r₁ = r₂

/-- The word of every instruction but a comment decodes to that instruction, with every operand at every
value; a comment's word decodes to NONE (R63, R65). -/
def Obligations.DecodeOfEncodeIsTheInstruction : Prop :=
  ∀ i : Instr, ((∀ text, i ≠ .comment text) → decode (encode i) = .ok i) ∧
    (∀ text, i = .comment text → decode (encode i) = .ok .none)

/-- A word that decodes is the word of the instruction it decodes to: no bit of a legal word is dropped
(R63, R66). -/
def Obligations.EncodeOfDecodeIsTheWord : Prop :=
  ∀ (w : InstrWord) (i : Instr), decode w = .ok i → encode i = w

/-- Sample words, one or two of each format, written out field by field from the layout (R62, R64), decode
to the instructions they stand for, and three with a reserved field or opcode do not. -/
def Obligations.SampleWordsDecode : Prop :=
  decode (0b10001011000#11 ++ 3#5 ++ 0#6 ++ 2#5 ++ 1#5) = .ok (.add 1#5 2#5 3#5) ∧
  decode (0b1101000100#10 ++ 4095#12 ++ 30#5 ++ 30#5) = .ok (.subi 30#5 30#5 4095#12) ∧
  decode (0b11111000010#11 ++ 0b100000000#9 ++ 0#2 ++ 1#5 ++ 0#5) = .ok (.ldur 0#5 1#5 (-256)) ∧
  decode (0b11111000000#11 ++ 255#9 ++ 0#2 ++ 3#5 ++ 2#5) = .ok (.stur 2#5 3#5 255#9) ∧
  decode (0b000101#6 ++ 0x3FFFFFF#26) = .ok (.b (-1)) ∧
  decode (0b10110100#8 ++ 0x40000#19 ++ 0#5) = .ok (.cbz 0#5 (-262144)) ∧
  decode (0b10110101#8 ++ 0x3FFFF#19 ++ 30#5) = .ok (.cbnz 30#5 262143#19) ∧
  decode 0#32 = .ok .none ∧
  decode 0x8B000400#32 = .error (.reservedShamt 0x8B000400#32) ∧
  decode 0xF8400800#32 = .error (.reservedOp 0xF8400800#32) ∧
  decode 0x91400000#32 = .error (.noRow 0x91400000#32)

/-- A table word placed where the next tick fetches is what that tick runs: the decoded instruction at
the state with the word in place, which differs from the state only in the program: registers, pc, memory
and recorded outputs are the same, and so is every other entry of the program (the model's
`withFetchWord`, log entries 7 and 17). -/
def Obligations.PlacedWordIsTheNextInstruction : Prop :=
  ∀ (s : State) (nbits w : Nat) (i : Instr), decodeTableWord nbits w = some i →
    step (s.withFetchWord nbits w) = exec i (s.withFetchWord nbits w) ∧
    (s.withFetchWord nbits w).regs = s.regs ∧ (s.withFetchWord nbits w).pc = s.pc ∧
    (s.withFetchWord nbits w).mem = s.mem ∧ (s.withFetchWord nbits w).answer = s.answer ∧
    (∀ k, k ≠ s.pc.toNat → k < s.prog.length → (s.withFetchWord nbits w).prog[k]? = s.prog[k]?)

/-! ## Registers and memory -/

/-- Index 31 reads 0 in every state; a write to it changes no state; a write to any other index is read
back there and nowhere else (R22, R23). -/
def Obligations.ZeroRegisterReadsZeroAndDiscardsWrites : Prop :=
  ∀ (s : State) (v : Word),
    s.readReg 31#5 = 0#64 ∧ s.writeReg 31#5 v = s ∧
    (∀ i, i ≠ 31#5 → (s.writeReg i v).readReg i = v ∧
      (∀ j, j ≠ i → (s.writeReg i v).readReg j = s.readReg j))

/-- The host's register port: index 0 to 30 is read and written, index 31 reads 0 and discards, any index
above 31 fails with RegisterError on both and changes nothing; a read never changes the state; and the
host may set the pc, alone (R38, R39). -/
def Obligations.HostRegisterPortHasThirtyTwoIndices : Prop :=
  ∀ (s : State) (idx : Nat) (v : Word),
    (idx ≤ 30 → ∃ t, s.hostSetReg idx v = .ok t ∧ t.hostGetReg idx = .ok v ∧
      (∀ j, j ≤ 31 → j ≠ idx → t.hostGetReg j = s.hostGetReg j) ∧
      t.pc = s.pc ∧ t.mem = s.mem ∧ t.prog = s.prog) ∧
    (idx = 31 → s.hostSetReg idx v = .ok s ∧ s.hostGetReg idx = .ok 0#64) ∧
    (31 < idx → s.hostSetReg idx v = .error (.registerError idx) ∧
      s.hostGetReg idx = .error (.registerError idx) ∧ (s.hostMove (.setReg idx v)).1 = s) ∧
    (∀ (k : Nat) (h : k < 31), s.hostGetReg k = .ok s.regs[k]) ∧
    (s.hostMove (.getReg idx)).1 = s ∧
    ((s.hostSetPc v).pc = v ∧ (s.hostSetPc v).regs = s.regs ∧ (s.hostSetPc v).mem = s.mem ∧
      (s.hostSetPc v).prog = s.prog)

/-- Memory reads and writes: a read at an aligned address gives the word at slot address / 8, and on
canonical memory an aligned write is read back and leaves every other address as it was; a misaligned
address fails with AlignmentError on both and nothing is written (R42, R43). -/
def Obligations.MemoryReadAfterWrite : Prop :=
  ∀ (m : Memory) (addr v : Word), m.wf = true →
    (addr.toNat % 8 = 0 → memRead m addr = .ok (m.get (addr.toNat / 8)) ∧
      ∃ m', memWrite m addr v = .ok m' ∧ memRead m' addr = .ok v ∧
      (∀ a, a ≠ addr → memRead m' a = memRead m a)) ∧
    (addr.toNat % 8 ≠ 0 → memWrite m addr v = .error (.alignmentError addr) ∧
      memRead m addr = .error (.alignmentError addr))

/-- The occupied set: on canonical memory `get_used()` lists exactly the slots that hold a non-zero word,
strictly ascending; a write of 0 removes its slot from it, any other write adds it, and no other slot
comes or goes (R44; the order is decision D26). -/
def Obligations.OccupiedSetIsTheNonZeroSlots : Prop :=
  ∀ (m : Memory), m.wf = true →
    (∀ k, k ∈ m.used ↔ m.get k ≠ 0#64) ∧ m.used.Pairwise (· < ·) ∧
    (∀ (slot : Slot) (v : Word) (k : Nat), k ∈ (m.set slot.toNat v).used ↔
      (k = slot.toNat ∧ v ≠ 0#64) ∨ (k ≠ slot.toNat ∧ k ∈ m.used))

/-- A load sees the last store: after STUR of a register at an address, an LDUR at the same effective
address as its next tick's instruction gives that register's stored value (R50, R148). -/
def Obligations.LoadSeesTheStoreBeforeIt : Prop :=
  ∀ (s t u : State) (rt rn rt' rn' : RegIdx) (off off' : BitVec 9), s.wf = true →
    exec (.stur rt rn off) s = .next t → exec (.ldur rt' rn' off') t = .next u →
    t.effectiveAddress rn' off' = s.effectiveAddress rn off → rt' ≠ 31#5 →
    u.readReg rt' = s.readReg rt

/-- The result of ADD, SUB, ADDI and SUBI is the sum or difference mod 2^64 of the operands read as signed
and of the operands read as unsigned alike, whichever way the result is read (the inference of R96; that
the immediate's two readings are equal is R99's and R100's). -/
def Obligations.SignedAndUnsignedReadingsAgree : Prop :=
  ∀ (rd rn rm : RegIdx) (imm : BitVec 12) (s : State), rd ≠ 31#5 →
    (∃ t, exec (.add rd rn rm) s = .next t ∧
      (t.readReg rd).toInt % 2 ^ 64 = ((s.readReg rn).toInt + (s.readReg rm).toInt) % 2 ^ 64 ∧
      (t.readReg rd).toInt % 2 ^ 64 =
        (((s.readReg rn).toNat : Int) + (s.readReg rm).toNat) % 2 ^ 64) ∧
    (∃ t, exec (.sub rd rn rm) s = .next t ∧
      (t.readReg rd).toInt % 2 ^ 64 = ((s.readReg rn).toInt - (s.readReg rm).toInt) % 2 ^ 64 ∧
      (t.readReg rd).toInt % 2 ^ 64 =
        (((s.readReg rn).toNat : Int) - (s.readReg rm).toNat) % 2 ^ 64) ∧
    (∃ t, exec (.addi rd rn imm) s = .next t ∧
      (t.readReg rd).toInt % 2 ^ 64 = ((s.readReg rn).toInt + imm.toNat) % 2 ^ 64 ∧
      (t.readReg rd).toInt % 2 ^ 64 = (((s.readReg rn).toNat : Int) + imm.toNat) % 2 ^ 64) ∧
    (∃ t, exec (.subi rd rn imm) s = .next t ∧
      (t.readReg rd).toInt % 2 ^ 64 = ((s.readReg rn).toInt - imm.toNat) % 2 ^ 64 ∧
      (t.readReg rd).toInt % 2 ^ 64 = (((s.readReg rn).toNat : Int) - imm.toNat) % 2 ^ 64)

/-! ## Reset and invariants -/

/-- After reset every register index reads 0, the pc is 0, every aligned address reads 0, no slot is
occupied and the program is empty; the register and pc zeros are the spec's own reading D24 (R37; log
entry 6). -/
def Obligations.ResetLeavesEverythingZero : Prop :=
  (∀ i, State.reset.readReg i = 0#64) ∧ State.reset.pc = 0#64 ∧
  (∀ a : Word, a.toNat % 8 = 0 → memRead State.reset.mem a = .ok 0#64) ∧
  State.reset.getUsed = [] ∧ State.reset.prog = [] ∧ State.reset.wf = true

/-- From reset with nothing placed the first tick answers ShouldStop and changes nothing (R137). -/
def Obligations.FirstTickAfterResetStops : Prop :=
  ∃ t, step State.reset = .next t ∧ t.lastOutcome = some .shouldStop ∧
    t.regs = State.reset.regs ∧ t.pc = State.reset.pc ∧ t.mem = [] ∧ t.prog = []

/-- Every step keeps memory in its canonical form: slots strictly rising, below 2^61, no zero word
listed (R40, R44). -/
def Obligations.StepKeepsCanonicalMemory : Prop :=
  ∀ s t : State, s.wf = true → step s = .next t → t.wf = true

/-- Every session of the host, whatever its moves, keeps memory in its canonical form (R44, R141). -/
def Obligations.SessionKeepsCanonicalMemory : Prop :=
  ∀ (moves : List HostMove) (s : State), s.wf = true → (s.session moves).1.wf = true

/-- A program without LDUR, STUR and illegal words never fails: every state all of whose program entries
fetch as other instructions is safe, on runs of any length (R119, R120). -/
def Obligations.ProgramsWithoutLoadsAndStoresAreSafe : Prop :=
  ∀ s : State,
    (∀ e ∈ s.prog, ∃ i, e.fetched = .instr i ∧
      (∀ rt rn off, i ≠ .ldur rt rn off) ∧ (∀ rt rn off, i ≠ .stur rt rn off)) → Safe s

/-! ## Decoder outputs -/

/-- Only Dest operands change: a register that reads differently after an instruction is listed with the
role Dest, and never for STUR or a branch (R24, R115). -/
def Obligations.OnlyDestOperandsChange : Prop :=
  ∀ (i : Instr) (s t : State) (r : RegIdx), exec i s = .next t → t.readReg r ≠ s.readReg r →
    (r, Role.dest) ∈ operands i

/-- Source operands determine the effect: from two states with the same pc, memory and program that agree
on every register listed as Source, an instruction raises the same error, or gives next states with the
same pc, memory and outputs, and the same value in every register listed as Dest (R24, R115). -/
def Obligations.SourceOperandsDetermineTheEffect : Prop :=
  ∀ (i : Instr) (s₁ s₂ : State), s₁.pc = s₂.pc → s₁.mem = s₂.mem → s₁.prog = s₂.prog →
    (∀ r, (r, Role.source) ∈ operands i → s₁.readReg r = s₂.readReg r) →
    (∃ e, exec i s₁ = .fault e ∧ exec i s₂ = .fault e) ∨
    (∃ t₁ t₂, exec i s₁ = .next t₁ ∧ exec i s₂ = .next t₂ ∧ t₁.pc = t₂.pc ∧ t₁.mem = t₂.mem ∧
      t₁.answer = t₂.answer ∧
      (∀ r, (r, Role.dest) ∈ operands i → t₁.readReg r = t₂.readReg r))

/-- The footprint is exact: for LDUR and STUR it is None exactly when the instruction raises
AlignmentError, else the slot is the effective address shifted right by 3 with the kind of the access;
for every other instruction it is None; and memory changes only at the slot of a Write footprint (R116). -/
def Obligations.FootprintIsExact : Prop :=
  (∀ (rt rn : RegIdx) (off : BitVec 9) (s : State),
    (footprint (.ldur rt rn off) s.regs = none ↔
      exec (.ldur rt rn off) s = .fault (.alignmentError (s.effectiveAddress rn off))) ∧
    (footprint (.stur rt rn off) s.regs = none ↔
      exec (.stur rt rn off) s = .fault (.alignmentError (s.effectiveAddress rn off))) ∧
    (∀ slot k, footprint (.ldur rt rn off) s.regs = some (slot, k) →
      slot.toNat = (s.effectiveAddress rn off).toNat / 8 ∧ k = .read) ∧
    (∀ slot k, footprint (.stur rt rn off) s.regs = some (slot, k) →
      slot.toNat = (s.effectiveAddress rn off).toNat / 8 ∧ k = .write)) ∧
  (∀ (i : Instr) (regs : RegFile), (∀ rt rn off, i ≠ .ldur rt rn off) →
    (∀ rt rn off, i ≠ .stur rt rn off) → footprint i regs = none) ∧
  (∀ (i : Instr) (s t : State) (k : Nat), s.wf = true → exec i s = .next t →
    t.mem.get k ≠ s.mem.get k → ∃ slot, footprint i s.regs = some (slot, .write) ∧ k = slot.toNat)

/-- The control-flow target is where the taken branch goes: for B always, for CBZ and CBNZ when their
condition holds, and it is None for every instruction that is no branch (R117; the wrap is decision
D15). -/
def Obligations.TargetIsWhereTheBranchGoes : Prop :=
  (∀ (imm : BitVec 26) (s t : State), exec (.b imm) s = .next t → target (.b imm) s.pc = some t.pc) ∧
  (∀ (rt : RegIdx) (imm : BitVec 19) (s t : State), s.readReg rt = 0#64 →
    exec (.cbz rt imm) s = .next t → target (.cbz rt imm) s.pc = some t.pc) ∧
  (∀ (rt : RegIdx) (imm : BitVec 19) (s t : State), s.readReg rt ≠ 0#64 →
    exec (.cbnz rt imm) s = .next t → target (.cbnz rt imm) s.pc = some t.pc) ∧
  (∀ (i : Instr) (pc : Word), target i pc = none ↔
    (∀ imm, i ≠ .b imm) ∧ (∀ rt imm, i ≠ .cbz rt imm) ∧ (∀ rt imm, i ≠ .cbnz rt imm))

/-- The evaluated effect shows what execution does: a misaligned address exactly when the instruction
raises, a stop exactly for a halt marker, a register's value only for the register listed as Dest and
equal to what it gets, a stored word only at the slot of a Write footprint and equal to what stands there
after, and for the instructions that have a target, and no others, whether and by how much the pc moves.
For the zero register as destination the value shown is the one any other destination would get (R118,
C2; the shape of the effect is the model's choice, log entry 24). -/
def Obligations.EvaluatedEffectMatchesExecution : Prop :=
  (∀ (i : Instr) (s : State), s.wf = true →
    (match evaluatedEffect i s.regs s.mem with
    | .misaligned a => exec i s = .fault (.alignmentError a)
    | .stops => (i = .none ∨ ∃ text, i = .comment text) ∧
        ∃ t, exec i s = .next t ∧ t.lastOutcome = some .shouldStop
    | .setsReg rd v => (rd, Role.dest) ∈ operands i ∧
        ∃ t, exec i s = .next t ∧ (rd ≠ 31#5 → t.readReg rd = v)
    | .storesWord slot v => footprint i s.regs = some (slot, .write) ∧
        ∃ t, exec i s = .next t ∧ t.mem.get slot.toNat = v
    | .branches taken delta => (target i s.pc).isSome = true ∧ ∃ t, exec i s = .next t ∧
        ((t.pc.toNat : Int) = (s.pc.toNat + delta) % 2 ^ 64) ∧
        (taken = true → target i s.pc = some t.pc) ∧ (taken = false → delta = 1)) ∧
    (∀ e, exec i s = .fault e → ∃ a, evaluatedEffect i s.regs s.mem = .misaligned a) ∧
    ((i = .none ∨ ∃ text, i = .comment text) → evaluatedEffect i s.regs s.mem = .stops) ∧
    ((target i s.pc).isSome = true →
      ∃ taken delta, evaluatedEffect i s.regs s.mem = .branches taken delta)) ∧
  (∀ (rd rn rm : RegIdx) (imm : BitVec 12) (off : BitVec 9) (s : State) (v : Word), rd ≠ 31#5 →
    (evaluatedEffect (.add 31#5 rn rm) s.regs s.mem = .setsReg 31#5 v →
      ∃ t, exec (.add rd rn rm) s = .next t ∧ t.readReg rd = v) ∧
    (evaluatedEffect (.sub 31#5 rn rm) s.regs s.mem = .setsReg 31#5 v →
      ∃ t, exec (.sub rd rn rm) s = .next t ∧ t.readReg rd = v) ∧
    (evaluatedEffect (.addi 31#5 rn imm) s.regs s.mem = .setsReg 31#5 v →
      ∃ t, exec (.addi rd rn imm) s = .next t ∧ t.readReg rd = v) ∧
    (evaluatedEffect (.subi 31#5 rn imm) s.regs s.mem = .setsReg 31#5 v →
      ∃ t, exec (.subi rd rn imm) s = .next t ∧ t.readReg rd = v) ∧
    (evaluatedEffect (.ldur 31#5 rn off) s.regs s.mem = .setsReg 31#5 v →
      ∃ t, exec (.ldur rd rn off) s = .next t ∧ t.readReg rd = v))

/-! ## Assembler -/

/-- Rendering an instruction and parsing the text gives the instruction back, for every instruction a
line can carry, with every operand at every value of its range (R82; the spelling is decision D19). -/
def Obligations.ParseOfRenderIsTheInstruction : Prop :=
  ∀ i : Instr, i.wellFormed = true → parse (render i) = .ok i

/-- The validator commits exactly the well-formed records, unchanged; with registers in range and the
immediate outside its opcode's range it fails with a RangeError that names the opcode and the value; and a
line of every opcode with an immediate, whatever integer it carries, parses to the instruction inside the
range of R58 and fails with that RangeError outside it (R58, R80; the spelling of the lines is decision
D19). -/
def Obligations.ValidationChecksTheImmediateRange : Prop :=
  (∀ r : RawInstr, r.wellFormed = true → ∃ i, validate r = .ok i ∧ record i = r) ∧
  (∀ (r : RawInstr) (i : Instr), validate r = .ok i → r.wellFormed = true) ∧
  (∀ (r : RawInstr) (m : Mnemonic) (k : Int), r.regs.all (fun x => decide (x ≤ 31)) = true →
    r.immediate = some (m, k) → (k < m.range.1 ∨ m.range.2 ≤ k) → validate r = .error (.range m k)) ∧
  (∀ (d n : RegIdx) (k : Int),
    parse (['a', 'd', 'd', 'i', ' '] ++ renderReg d ++ [',', ' '] ++ renderReg n ++ [',', ' ', '#'] ++
        renderInt k) =
      (if 0 ≤ k ∧ k < 4096 then .ok (.addi d n (BitVec.ofInt 12 k)) else .error (.rangeError .addi k)) ∧
    parse (['s', 'u', 'b', 'i', ' '] ++ renderReg d ++ [',', ' '] ++ renderReg n ++ [',', ' ', '#'] ++
        renderInt k) =
      (if 0 ≤ k ∧ k < 4096 then .ok (.subi d n (BitVec.ofInt 12 k)) else .error (.rangeError .subi k)) ∧
    parse (['l', 'd', 'u', 'r', ' '] ++ renderReg d ++ [',', ' ', '['] ++ renderReg n ++
        [',', ' ', '#'] ++ renderInt k ++ [']']) =
      (if -256 ≤ k ∧ k ≤ 255 then .ok (.ldur d n (BitVec.ofInt 9 k))
        else .error (.rangeError .ldur k)) ∧
    parse (['s', 't', 'u', 'r', ' '] ++ renderReg d ++ [',', ' ', '['] ++ renderReg n ++
        [',', ' ', '#'] ++ renderInt k ++ [']']) =
      (if -256 ≤ k ∧ k ≤ 255 then .ok (.stur d n (BitVec.ofInt 9 k))
        else .error (.rangeError .stur k)) ∧
    parse (['b', ' ', '#'] ++ renderInt k) =
      (if -33554432 ≤ k ∧ k ≤ 33554431 then .ok (.b (BitVec.ofInt 26 k))
        else .error (.rangeError .b k)) ∧
    parse (['c', 'b', 'z', ' '] ++ renderReg d ++ [',', ' ', '#'] ++ renderInt k) =
      (if -262144 ≤ k ∧ k ≤ 262143 then .ok (.cbz d (BitVec.ofInt 19 k))
        else .error (.rangeError .cbz k)) ∧
    parse (['c', 'b', 'n', 'z', ' '] ++ renderReg d ++ [',', ' ', '#'] ++ renderInt k) =
      (if -262144 ≤ k ∧ k ≤ 262143 then .ok (.cbnz d (BitVec.ofInt 19 k))
        else .error (.rangeError .cbnz k)))

/-- Blanks and tabs put before and after a line make no difference to what it parses to, whatever the
line; and two lines that differ only in the case of the letters A to Z parse alike, unless the first is a
comment line, one that opens with the marker after any blanks and tabs (R71; white space and letters as
log entry 11 reads them; that a comment's text keeps its case is decision D18). -/
def Obligations.ParseIgnoresCaseAndSurroundingBlanks : Prop :=
  (∀ before line after : Text, (∀ c ∈ before, c = ' ' ∨ c = '\t') → (∀ c ∈ after, c = ' ' ∨ c = '\t') →
    parse (before ++ line ++ after) = parse line) ∧
  (∀ line₁ line₂ : Text, line₁.map Char.toLower = line₂.map Char.toLower →
    (∀ before rest : Text, line₁ = before ++ ['/', '/'] ++ rest →
      ∃ c ∈ before, c ≠ ' ' ∧ c ≠ '\t') →
    parse line₁ = parse line₂)

/-- A line of white space parses to NONE; a line that opens with the comment marker, after any white
space, parses to the comment of the rest, verbatim (R72, R73; white space as log entry 11 reads it). -/
def Obligations.BlankAndCommentLinesParse : Prop :=
  (∀ line : Text, line.all Config.isBlank = true → parse line = .ok .none) ∧
  (∀ blanks text : Text, blanks.all Config.isBlank = true → lineText text = true →
    parse (blanks ++ Config.commentMarker ++ text) = .ok (.comment text))

/-! ## The host -/

/-- A move of the host that fails leaves every piece of state as it was, and so does a tick that raises
(R81, R91, R135, R143); loading a snapshot that cannot be read, or that is no snapshot, fails with that
report, and the batch driver stops on it (R143, R144; what the host finds is an input, log entry 26). -/
def Obligations.FailedMovesChangeNothing : Prop :=
  (∀ (s : State) (m : HostMove),
    (∀ e, (s.hostMove m).2 = .portError e → (s.hostMove m).1 = s) ∧
    (∀ e, (s.hostMove m).2 = .editError e → (s.hostMove m).1 = s) ∧
    (∀ e, (s.hostMove m).2 = .loadError e → (s.hostMove m).1 = s) ∧
    (∀ a e, (s.hostMove m).2 = .ticked (some a) → a.outcome = .execError e → (s.hostMove m).1 = s)) ∧
  (∀ s : State, s.hostMove (.loadSnapshot .unreadable) = (s, .loadError .unreadable) ∧
    s.hostMove (.loadSnapshot .malformed) = (s, .loadError .malformed)) ∧
  (∀ (src : SnapshotSource) (maxIter : Nat) (e : LoadError), src.load = .error e →
    batch src maxIter = .error e)

/-- Loading the snapshot just saved gives an equal state: registers, pc, memory and program (R142). -/
def Obligations.SnapshotRoundTrip : Prop :=
  ∀ s : State, s.wf = true → ∃ t, s.save.load = .ok t ∧
    t.regs = s.regs ∧ t.pc = s.pc ∧ t.mem = s.mem ∧ t.prog = s.prog

/-- A snapshot that loads is the state, exactly: its 31 registers, its pc, the words its mapping lists and
0 in every other slot, and entry by entry its program, each word as it is and each record as the
instruction whose record it is; and it holds only well-formed records. A snapshot with another register
count, with a register index above 31 or with an immediate out of range is refused (R138; the refusal is
decision D29); so is one whose mapping names a slot twice or beyond the last (the model's choice, log
entry 15). -/
def Obligations.BadSnapshotsAreRefused : Prop :=
  (∀ (snap : Snapshot) (t : State), snap.load = .ok t →
    snap.regs.length = 31 ∧ (∀ r, RawEntry.decoded r ∈ snap.prog → r.wellFormed = true) ∧
    t.regs.toList = snap.regs ∧ t.pc = snap.pc ∧
    (∀ c ∈ snap.mem, t.mem.get c.1 = c.2) ∧
    (∀ k, (∀ c ∈ snap.mem, c.1 ≠ k) → t.mem.get k = 0#64) ∧
    t.prog.length = snap.prog.length ∧
    (∀ (k : Nat) (w : InstrWord), snap.prog[k]? = some (.word w) → t.prog[k]? = some (.word w)) ∧
    (∀ (k : Nat) (r : RawInstr), snap.prog[k]? = some (.decoded r) →
      ∃ i, t.prog[k]? = some (.decoded i) ∧ record i = r)) ∧
  (∀ snap : Snapshot, snap.regs.length ≠ 31 → ∃ e, snap.load = .error e) ∧
  (∀ (snap : Snapshot) (r : RawInstr), RawEntry.decoded r ∈ snap.prog → r.wellFormed = false →
    ∃ e, snap.load = .error e) ∧
  (∀ snap : Snapshot, (¬ (snap.mem.map Prod.fst).Nodup ∨ ∃ c ∈ snap.mem, 2 ^ 61 ≤ c.1) →
    ∃ e, snap.load = .error e)

/-- The batch driver: its count is the number of KeepRunning ticks from the start to the state it reached;
it exits Limit after exactly MAX_ITER of them, else with fewer, Stopped where the next tick answers
ShouldStop or Failed with the error and entry of the tick that raises (R144; what the count counts is
decision D22). -/
def Obligations.BatchCountsKeepRunningTicks : Prop :=
  ∀ (s : State) (maxIter : Nat), ∃ u, Runs (s.batch maxIter).count s u ∧
    match (s.batch maxIter).exit with
    | .limit => (s.batch maxIter).count = maxIter ∧ (s.batch maxIter).state = u
    | .stopped => (s.batch maxIter).count < maxIter ∧ EndsNormally u ∧
        step u = .next (s.batch maxIter).state
    | .failed e entry => (s.batch maxIter).count < maxIter ∧ EndsInFailure u e ∧
        (s.batch maxIter).state = u ∧ entry = u.prog[u.pc.toNat]? ∧ entry.isSome = true
    | .unmodelled _ => False

/-- Context ranges: a slot is in some range exactly when it is within the radius of an occupied slot or a
point of interest, clamped to the slot range; the ranges are non-empty, ascending, and no two overlap or
are adjacent (R55; inclusive pairs and clamping are decision D26). -/
def Obligations.ContextRangesCoverExactlyTheSurroundings : Prop :=
  ∀ (used points : List Nat) (radius : Nat),
    (∀ t : Nat, (∃ r ∈ contextRanges used points radius, r.1 ≤ t ∧ t ≤ r.2) ↔
      ∃ s, (s ∈ used ∨ s ∈ points) ∧ s - radius ≤ t ∧ t ≤ min (2 ^ 61 - 1) (s + radius)) ∧
    (∀ r ∈ contextRanges used points radius, r.1 ≤ r.2) ∧
    (contextRanges used points radius).Pairwise (fun a b => a.2 + 1 < b.1)

/-- A successful edit of the program: the parsed line stands at the end of the program (append), before
the entry named, the entry after the last included (insert), or in its place (replace), or the entry named
is gone (remove); every other entry keeps its order, and registers, pc and memory are unchanged (R34,
R141). An edit at a position that does not exist is refused and changes nothing (the model's choice, log
entry 14). -/
def Obligations.ProgramEditsCommitTheParsedLine : Prop :=
  ∀ (s : State) (k : Nat) (line : Text),
    (∀ i, parse line = .ok i →
      (∃ t, s.hostMove (.appendLine line) = (t, .done) ∧ t.prog = s.prog ++ [.decoded i] ∧
        t.regs = s.regs ∧ t.pc = s.pc ∧ t.mem = s.mem) ∧
      (k ≤ s.prog.length → ∃ t, s.hostMove (.insertLine k line) = (t, .done) ∧
        t.prog = s.prog.take k ++ .decoded i :: s.prog.drop k ∧
        t.regs = s.regs ∧ t.pc = s.pc ∧ t.mem = s.mem) ∧
      (k < s.prog.length → ∃ t, s.hostMove (.replaceLine k line) = (t, .done) ∧
        t.prog = s.prog.take k ++ .decoded i :: s.prog.drop (k + 1) ∧
        t.regs = s.regs ∧ t.pc = s.pc ∧ t.mem = s.mem)) ∧
    (k < s.prog.length → ∃ t, s.hostMove (.removeLine k) = (t, .done) ∧
      t.prog = s.prog.take k ++ s.prog.drop (k + 1) ∧
      t.regs = s.regs ∧ t.pc = s.pc ∧ t.mem = s.mem) ∧
    (s.prog.length < k →
      s.hostMove (.insertLine k line) = (s, .editError (.noSuchEntry k))) ∧
    (s.prog.length ≤ k →
      s.hostMove (.replaceLine k line) = (s, .editError (.noSuchEntry k)) ∧
      s.hostMove (.removeLine k) = (s, .editError (.noSuchEntry k)))
end

