-- ==== Sys2Proof/Laws/Assembler.lean ====
section
/-! SUPPORT. Tokens of the assembler: decimal numbers and register names are read back from their
rendering, and each operand reader's answer on a rendered operand (30_encoding.md R75, R76, R82). -/

namespace Sys2Proof.Machine

/-! Runs of characters -/

/-- A run of characters that satisfy `p`, cut off where the rest begins with one that does not. -/
theorem takeWhile_dropWhile_run (p : Char → Bool) (a r : Text) (ha : ∀ c ∈ a, p c = true)
    (hr : ∀ c ∈ r.head?, p c = false) :
    (a ++ r).takeWhile p = a ∧ (a ++ r).dropWhile p = r := by
  induction a with
  | nil =>
    cases r with
    | nil => exact ⟨rfl, rfl⟩
    | cons c r =>
      have hc := hr c (by simp)
      simp [hc]
  | cons c a ih =>
    have hc := ha c (List.mem_cons_self ..)
    obtain ⟨h1, h2⟩ := ih (fun d hd => ha d (List.mem_cons_of_mem _ hd))
    simp [hc, h1, h2]

/-- A line that does not begin with white space has none to skip. -/
theorem skipBlanks_of_head (u : Text) (h : ∀ c ∈ u.head?, Config.isBlank c = false) :
    skipBlanks u = u := by
  cases u with
  | nil => rfl
  | cons c u => simp [skipBlanks, List.dropWhile, h c (by simp)]

/-- A line that neither begins nor ends with white space is trimmed already. -/
theorem trim_of_ends (u : Text) (h : ∀ c ∈ u.head?, Config.isBlank c = false)
    (hl : ∀ c ∈ u.getLast?, Config.isBlank c = false) : trim u = u := by
  unfold trim
  rw [skipBlanks_of_head u h, skipBlanks_of_head u.reverse (by simpa [List.head?_reverse] using hl),
    List.reverse_reverse]

theorem fold_append (a b : Text) : fold (a ++ b) = fold a ++ fold b := by
  simp [fold]

theorem fold_cons (c : Char) (b : Text) : fold (c :: b) = foldChar c :: fold b := rfl

/-! Decimal numbers -/

/-- A decimal digit character: its value, and that folding and tokens take it as it is. -/
theorem digitChar_spec (d : Nat) (h : d < 10) :
    isDigit (digitChar d) = true ∧ (digitChar d).toNat - '0'.toNat = d := by
  revert d
  decide

theorem isDigit_range (c : Char) (h : isDigit c = true) : 48 ≤ c.toNat ∧ c.toNat ≤ 57 := by
  simp only [isDigit, decide_eq_true_eq, Char.le_def, UInt32.le_iff_toNat_le] at h
  exact h

theorem ne_of_toNat_ne {c d : Char} (h : c.toNat ≠ d.toNat) : c ≠ d := fun e => h (e ▸ rfl)

/-- A digit is no separator, no white space and no letter. -/
theorem isDigit_token (c : Char) (h : isDigit c = true) :
    inImmToken c = true ∧ foldChar c = c ∧ Config.isBlank c = false ∧ c ≠ '-' := by
  obtain ⟨h1, h2⟩ := isDigit_range c h
  have hb : c ≠ ' ' := ne_of_toNat_ne (by show c.toNat ≠ 32; omega)
  have ht : c ≠ '\t' := ne_of_toNat_ne (by show c.toNat ≠ 9; omega)
  have hc : c ≠ ',' := ne_of_toNat_ne (by show c.toNat ≠ 44; omega)
  have hs : c ≠ ']' := ne_of_toNat_ne (by show c.toNat ≠ 93; omega)
  have hm : c ≠ '-' := ne_of_toNat_ne (by show c.toNat ≠ 45; omega)
  refine ⟨by simp [inImmToken, Config.isBlank, hb, ht, hc, hs], ?_, by simp [Config.isBlank, hb, ht], hm⟩
  unfold foldChar
  rw [if_neg]
  intro hA
  have : ('A').toNat ≤ c.toNat := hA.1
  have : 65 ≤ c.toNat := this
  omega

theorem digitsValue_append (a : Text) (c : Char) :
    digitsValue (a ++ [c]) = digitsValue a * 10 + (c.toNat - '0'.toNat) := by
  simp [digitsValue]

/-- The digits of a number: all decimal digits, at least one, and their value is the number. -/
theorem natDigits_spec (fuel n : Nat) (h : n < fuel) :
    (∀ c ∈ natDigits fuel n, isDigit c = true) ∧ natDigits fuel n ≠ [] ∧
      digitsValue (natDigits fuel n) = n := by
  induction fuel generalizing n with
  | zero => omega
  | succ fuel ih =>
    unfold natDigits
    split
    · rename_i h10
      obtain ⟨hd, hv⟩ := digitChar_spec n h10
      refine ⟨by simpa using hd, by simp, ?_⟩
      simpa [digitsValue] using hv
    · rename_i h10
      obtain ⟨h1, -, h3⟩ := ih (n / 10) (by omega)
      obtain ⟨hd, hv⟩ := digitChar_spec (n % 10) (by omega)
      refine ⟨?_, by simp, ?_⟩
      · intro c hc
        rcases List.mem_append.1 hc with hc | hc
        · exact h1 c hc
        · simp at hc; subst hc; exact hd
      · rw [digitsValue_append, h3, hv]; omega

theorem renderNat_spec (n : Nat) :
    (∀ c ∈ renderNat n, isDigit c = true) ∧ renderNat n ≠ [] ∧ digitsValue (renderNat n) = n :=
  natDigits_spec (n + 1) n (Nat.lt_succ_self n)

/-- A run of digits is an immediate's value. -/
theorem immValue_digits (ds : Text) (h : ∀ c ∈ ds, isDigit c = true) (hne : ds ≠ []) :
    immValue ds = some (digitsValue ds : Int) := by
  unfold immValue
  split
  · rename_i r
    exact absurd rfl (isDigit_token '-' (h '-' (List.mem_cons_self ..))).2.2.2
  · have : ds.all isDigit = true := List.all_eq_true.2 h
    cases ds with
    | nil => exact absurd rfl hne
    | cons c r => simp [this]

/-- A rendered integer is read back (R76, R82). -/
theorem immValue_renderInt (v : Int) : immValue (renderInt v) = some v := by
  obtain ⟨h1, h2, h3⟩ := renderNat_spec v.natAbs
  unfold renderInt
  split
  · rename_i hv
    have hall : (renderNat v.natAbs).all isDigit = true := List.all_eq_true.2 h1
    have hemp : (renderNat v.natAbs).isEmpty = false := by simpa using h2
    simp only [immValue, hall, hemp, h3, Bool.not_false, Bool.and_self, if_true]
    congr 1
    omega
  · rw [immValue_digits _ h1 h2, h3]
    congr 1
    omega

/-- The characters of a rendered integer stay inside the token, and folding keeps them. -/
theorem renderInt_chars (v : Int) :
    (∀ c ∈ renderInt v, inImmToken c = true) ∧ fold (renderInt v) = renderInt v ∧
      (∀ c ∈ (renderInt v).getLast?, Config.isBlank c = false) := by
  obtain ⟨h1, h2, -⟩ := renderNat_spec v.natAbs
  have hfold : fold (renderNat v.natAbs) = renderNat v.natAbs := by
    refine (List.map_congr_left fun c hc => (isDigit_token c (h1 c hc)).2.1).trans ?_
    simp
  have hall : ∀ c ∈ renderInt v, c = '-' ∨ isDigit c = true := by
    intro c hc
    unfold renderInt at hc
    split at hc
    · rcases List.mem_cons.1 hc with rfl | hc
      · exact .inl rfl
      · exact .inr (h1 c hc)
    · exact .inr (h1 c hc)
  refine ⟨?_, ?_, ?_⟩
  · intro c hc
    rcases hall c hc with rfl | hd
    · decide
    · exact (isDigit_token c hd).1
  · unfold renderInt
    split
    · rw [fold_cons, hfold]; rfl
    · exact hfold
  · intro c hc
    rcases hall c (List.mem_of_mem_getLast? hc) with rfl | hd
    · decide
    · exact (isDigit_token c hd).2.2.1

/-! Registers -/

/-- A rendered register, folded, is its own register token. -/
theorem regToken_renderReg : ∀ i : RegIdx, regToken (fold (renderReg i)) = some i.toNat := by decide

theorem renderReg_chars : ∀ i : RegIdx,
    (fold (renderReg i)).all inRegToken = true ∧ (fold (renderReg i)) ≠ [] ∧
      (renderReg i).getLast?.all (fun c => !Config.isBlank c) = true ∧
      (fold (renderReg i)).head?.all (fun c => !Config.isBlank c) = true := by decide

/-! The readers on rendered operands -/

theorem isBlank_blank : Config.isBlank ' ' = true := by decide

/-- A register is read back wherever what follows it is no token character. -/
theorem readRegister_render (i : RegIdx) (rest : Text)
    (hr : ∀ c ∈ rest.head?, inRegToken c = false) :
    readRegister (fold (renderReg i) ++ rest) = .ok (i.toNat, rest) := by
  obtain ⟨hall, hne, -, hhead⟩ := renderReg_chars i
  obtain ⟨h1, h2⟩ := takeWhile_dropWhile_run inRegToken (fold (renderReg i)) rest
    (List.all_eq_true.1 hall) hr
  cases hf : fold (renderReg i) with
  | nil => exact absurd hf hne
  | cons c r =>
    rw [hf] at h1 h2 hhead
    have hskip : skipBlanks (c :: r ++ rest) = c :: (r ++ rest) :=
      skipBlanks_of_head _ (by simpa using hhead)
    unfold readRegister
    rw [hskip]
    rw [List.cons_append] at h1 h2
    dsimp only
    rw [h1, h2, ← hf, regToken_renderReg]

/-- One blank before an operand makes no difference. -/
theorem readRegister_blank (u : Text) : readRegister (' ' :: u) = readRegister u := by
  simp [readRegister, skipBlanks, isBlank_blank]

/-- An immediate is read back wherever what follows it is no token character. -/
theorem readImmediate_render (v : Int) (rest : Text)
    (hr : ∀ c ∈ rest.head?, inImmToken c = false) :
    readImmediate ('#' :: (renderInt v ++ rest)) = .ok (v, rest) := by
  obtain ⟨h1, h2⟩ := takeWhile_dropWhile_run inImmToken (renderInt v) rest (renderInt_chars v).1 hr
  have hskip : skipBlanks ('#' :: (renderInt v ++ rest)) = '#' :: (renderInt v ++ rest) :=
    skipBlanks_of_head _ (by simp; decide)
  unfold readImmediate
  rw [hskip]
  simp [h1, h2, immValue_renderInt]

theorem readImmediate_blank (u : Text) : readImmediate (' ' :: u) = readImmediate u := by
  simp [readImmediate, skipBlanks, isBlank_blank]

/-- A separator is read where it stands. -/
theorem readSeparator_here (sep : Char) (u : Text) (h : Config.isBlank sep = false) :
    readSeparator sep (sep :: u) = .ok u := by
  simp [readSeparator, skipBlanks, h]

theorem readSeparator_blank (sep : Char) (u : Text) :
    readSeparator sep (' ' :: u) = readSeparator sep u := by
  simp [readSeparator, skipBlanks, isBlank_blank]

theorem readOffsetComma_here (u : Text) : readOffsetComma (',' :: u) = .ok u := by
  simp [readOffsetComma, skipBlanks, show Config.isBlank ',' = false by decide]

theorem readEnd_nil : readEnd [] = .ok () := rfl

/-! The productions on rendered operands -/

theorem readThreeRegs_render (mk : Nat → Nat → Nat → RawInstr) (d n m : RegIdx) :
    readThreeRegs mk (' ' :: (fold (renderReg d) ++ (',' :: ' ' :: (fold (renderReg n) ++
      (',' :: ' ' :: (fold (renderReg m) ++ [])))))) = .ok (mk d.toNat n.toNat m.toNat) := by
  unfold readThreeRegs
  rw [readRegister_blank, readRegister_render _ _ (by simp; decide)]
  simp only [bind, Except.bind]
  rw [readSeparator_here _ _ (by decide)]
  dsimp only
  rw [readRegister_blank, readRegister_render _ _ (by simp; decide)]
  dsimp only
  rw [readSeparator_here _ _ (by decide)]
  dsimp only
  rw [readRegister_blank, readRegister_render _ _ (by simp)]
  dsimp only
  rw [readEnd_nil]
  rfl

theorem readTwoRegsImm_render (mk : Nat → Nat → Int → RawInstr) (d n : RegIdx) (k : Int) :
    readTwoRegsImm mk (' ' :: (fold (renderReg d) ++ (',' :: ' ' :: (fold (renderReg n) ++
      (',' :: ' ' :: '#' :: (renderInt k ++ [])))))) = .ok (mk d.toNat n.toNat k) := by
  unfold readTwoRegsImm
  rw [readRegister_blank, readRegister_render _ _ (by simp; decide)]
  simp only [bind, Except.bind]
  rw [readSeparator_here _ _ (by decide)]
  dsimp only
  rw [readRegister_blank, readRegister_render _ _ (by simp; decide)]
  dsimp only
  rw [readSeparator_here _ _ (by decide)]
  dsimp only
  rw [readImmediate_blank, readImmediate_render _ _ (by simp)]
  dsimp only
  rw [readEnd_nil]
  rfl

theorem readRegImm_render (mk : Nat → Int → RawInstr) (t : RegIdx) (k : Int) :
    readRegImm mk (' ' :: (fold (renderReg t) ++ (',' :: ' ' :: '#' :: (renderInt k ++ [])))) =
      .ok (mk t.toNat k) := by
  unfold readRegImm
  rw [readRegister_blank, readRegister_render _ _ (by simp; decide)]
  simp only [bind, Except.bind]
  rw [readSeparator_here _ _ (by decide)]
  dsimp only
  rw [readImmediate_blank, readImmediate_render _ _ (by simp)]
  dsimp only
  rw [readEnd_nil]
  rfl

theorem readImm_render (mk : Int → RawInstr) (k : Int) :
    readImm mk (' ' :: '#' :: (renderInt k ++ [])) = .ok (mk k) := by
  unfold readImm
  rw [readImmediate_blank, readImmediate_render _ _ (by simp)]
  simp only [bind, Except.bind]
  rw [readEnd_nil]
  rfl

theorem readRegAddress_render (mk : Nat → Nat → Int → RawInstr) (t n : RegIdx) (k : Int) :
    readRegAddress mk (' ' :: (fold (renderReg t) ++ (',' :: ' ' :: '[' :: (fold (renderReg n) ++
      (',' :: ' ' :: '#' :: (renderInt k ++ [']'])))))) = .ok (mk t.toNat n.toNat k) := by
  unfold readRegAddress
  rw [readRegister_blank, readRegister_render _ _ (by simp; decide)]
  simp only [bind, Except.bind]
  rw [readSeparator_here _ _ (by decide)]
  dsimp only
  rw [readSeparator_blank, readSeparator_here _ _ (by decide)]
  dsimp only
  rw [readRegister_render _ _ (by simp; decide)]
  dsimp only
  rw [readOffsetComma_here]
  dsimp only
  rw [readImmediate_blank, readImmediate_render _ _ (by simp; decide)]
  dsimp only
  rw [readSeparator_here _ _ (by decide)]
  dsimp only
  rw [readEnd_nil]
  rfl

/-- A mnemonic followed by a blank selects its production (R74). -/
theorem readInstruction_mnemonic (m : Text) (mn : Mnemonic) (u : Text) (hm : m.all isLetter = true)
    (h : mnemonicOf m = some mn) : readInstruction (m ++ ' ' :: u) = readOperands mn (' ' :: u) := by
  obtain ⟨h1, h2⟩ :=
    takeWhile_dropWhile_run isLetter m (' ' :: u) (List.all_eq_true.1 hm) (by simp; decide)
  unfold readInstruction
  rw [h1, h2, h]
  simp [isBlank_blank]

/-- A line that neither begins nor ends with white space, is no comment and reads as a record parses to
what that record's validation gives (R80, R81). -/
theorem parse_record (line : Text) (r : RawInstr) (hne : line ≠ [])
    (hh : ∀ c ∈ line.head?, Config.isBlank c = false)
    (hl : ∀ c ∈ line.getLast?, Config.isBlank c = false)
    (hc : Config.commentMarker.isPrefixOf line = false) (hr : readInstruction (fold line) = .ok r) :
    parse line = commitLine r := by
  unfold parse
  rw [trim_of_ends line hh hl, if_neg hne, if_neg (by simp [hc]), hr]

/-- Such a line whose record validates parses to its instruction (R81). -/
theorem parse_instruction (line : Text) (r : RawInstr) (i : Instr) (hne : line ≠ [])
    (hh : ∀ c ∈ line.head?, Config.isBlank c = false)
    (hl : ∀ c ∈ line.getLast?, Config.isBlank c = false)
    (hc : Config.commentMarker.isPrefixOf line = false) (hr : readInstruction (fold line) = .ok r)
    (hv : validate r = .ok i) : parse line = .ok i := by
  rw [parse_record line r hne hh hl hc hr]
  simp [commitLine, hv]

/-! Validation of a decoded instruction's record -/

theorem narrow_record (i : Instr) : narrow (record i) = i := by
  cases i <;> simp [narrow, record]

theorem inRange_iff (m : Mnemonic) (k : Int) :
    m.inRange k = true ↔ m.range.1 ≤ k ∧ k < m.range.2 := by
  simp [Mnemonic.inRange]

/-- Well-formedness of a record with an immediate (R57, R58). -/
theorem wellFormed_of_immediate (r : RawInstr) (m : Mnemonic) (k : Int)
    (hr : ∀ i ∈ r.regs, i ≤ 31) (hi : r.immediate = some (m, k))
    (hk : m.range.1 ≤ k ∧ k < m.range.2) : r.wellFormed = true := by
  unfold RawInstr.wellFormed
  rw [hi, Bool.and_eq_true]
  exact ⟨List.all_eq_true.2 fun i h => decide_eq_true (hr i h), (inRange_iff m k).2 hk⟩

theorem record_wellFormed (i : Instr) : (record i).wellFormed = true := by
  have reg : ∀ r : RegIdx, r.toNat ≤ 31 := fun r => by have := r.isLt; omega
  have signed : ∀ {w : Nat} (v : BitVec w), -2 ^ (w - 1) ≤ v.toInt ∧ v.toInt < 2 ^ (w - 1) :=
    fun v => ⟨BitVec.le_toInt v, BitVec.toInt_lt⟩
  have unsigned : ∀ v : BitVec 12, (0 : Int) ≤ v.toNat ∧ (v.toNat : Int) < 4096 :=
    fun v => by have := v.isLt; omega
  cases i with
  | add d n m | sub d n m => simp [record, RawInstr.wellFormed, RawInstr.regs, RawInstr.immediate, reg]
  | addi d n k | subi d n k =>
    exact wellFormed_of_immediate _ _ _ (by simp [record, RawInstr.regs, reg]) rfl (unsigned k)
  | ldur t n o | stur t n o =>
    exact wellFormed_of_immediate _ _ _ (by simp [record, RawInstr.regs, reg]) rfl (signed o)
  | b k => exact wellFormed_of_immediate _ _ _ (by simp [record, RawInstr.regs]) rfl (signed k)
  | cbz t k | cbnz t k =>
    exact wellFormed_of_immediate _ _ _ (by simp [record, RawInstr.regs, reg]) rfl (signed k)
  | none => rfl
  | comment text => rfl

/-- A well-formed record is committed as its narrowing (R58, R80). -/
theorem validate_wellFormed (r : RawInstr) (h : r.wellFormed = true) : validate r = .ok (narrow r) := by
  unfold RawInstr.wellFormed at h
  rw [Bool.and_eq_true] at h
  have hfind : r.regs.find? (fun i => decide (31 < i)) = none := by
    rw [List.find?_eq_none]
    intro i hi
    have := List.all_eq_true.1 h.1 i hi
    simp at this ⊢
    omega
  unfold validate
  rw [hfind]
  dsimp only
  cases hi : r.immediate with
  | none => rfl
  | some p =>
    have h2 := h.2
    rw [hi] at h2
    dsimp only at h2 ⊢
    rw [if_pos h2]

/-- A natural number that fits a register field comes back from it. -/
theorem regField_toNat {k : Nat} (h : k ≤ 31) : (BitVec.ofNat 5 k).toNat = k := by
  simp; omega

/-- A number in the signed range of a field comes back from it (R63). -/
theorem signedField_toInt {w : Nat} {k : Int} (h0 : 0 < w) (h1 : -2 ^ (w - 1) ≤ k)
    (h2 : k < 2 ^ (w - 1)) : (BitVec.ofInt w k).toInt = k := by
  rw [BitVec.toInt_ofInt]
  have hp : (2 : Int) ^ w = 2 * 2 ^ (w - 1) := by
    obtain ⟨v, rfl⟩ : ∃ v, w = v + 1 := ⟨w - 1, by omega⟩
    simp [pow_succ]; ring
  rw [Int.bmod_eq_of_le] <;> push_cast <;> rw [hp] <;> omega

/-- A number in the range of imm12 comes back from it (R63). -/
theorem imm12_toNat {k : Int} (h1 : 0 ≤ k) (h2 : k < 4096) : ((BitVec.ofInt 12 k).toNat : Int) = k := by
  rw [BitVec.toNat_ofInt]; omega

/-- What well-formedness says of a record's registers and immediate (R57, R58). -/
theorem wellFormed_fields {r : RawInstr} (h : r.wellFormed = true) :
    (∀ i ∈ r.regs, i ≤ 31) ∧
      (∀ m k, r.immediate = some (m, k) → m.range.1 ≤ k ∧ k < m.range.2) := by
  unfold RawInstr.wellFormed at h
  rw [Bool.and_eq_true, List.all_eq_true] at h
  refine ⟨fun i hi => by simpa using h.1 i hi, fun m k hi => ?_⟩
  have h2 := h.2
  rw [hi] at h2
  exact (inRange_iff m k).1 h2

/-- Narrowing a well-formed record loses nothing (R60). -/
theorem record_narrow (r : RawInstr) (h : r.wellFormed = true) : record (narrow r) = r := by
  obtain ⟨hr, hk⟩ := wellFormed_fields h
  cases r with
  | add d n m | sub d n m =>
    simp [RawInstr.regs] at hr
    simp only [narrow, record, regField_toNat hr.1, regField_toNat hr.2.1, regField_toNat hr.2.2]
  | addi d n k | subi d n k =>
    have hi := hk _ _ rfl
    simp [RawInstr.regs] at hr
    simp only [narrow, record, regField_toNat hr.1, regField_toNat hr.2, imm12_toNat hi.1 hi.2]
  | ldur d n k | stur d n k =>
    have hi := hk _ _ rfl
    simp [RawInstr.regs] at hr
    simp only [narrow, record, regField_toNat hr.1, regField_toNat hr.2]
    rw [signedField_toInt (by decide) hi.1 hi.2]
  | b k =>
    have hi := hk _ _ rfl
    simp only [narrow, record]
    rw [signedField_toInt (by decide) hi.1 hi.2]
  | cbz d k | cbnz d k =>
    have hi := hk _ _ rfl
    simp [RawInstr.regs] at hr
    simp only [narrow, record, regField_toNat hr]
    rw [signedField_toInt (by decide) hi.1 hi.2]
  | none => rfl
  | comment t => rfl

/-- A parsed line with an immediate: the range check decides (R80). -/
theorem commitLine_immediate (r : RawInstr) (m : Mnemonic) (k : Int) (hr : ∀ i ∈ r.regs, i ≤ 31)
    (hi : r.immediate = some (m, k)) :
    commitLine r =
      if m.range.1 ≤ k ∧ k < m.range.2 then .ok (narrow r) else .error (.rangeError m k) := by
  have hf : r.regs.find? (fun i => decide (31 < i)) = none := by
    rw [List.find?_eq_none]
    intro i h
    have := hr i h
    simp only [decide_eq_true_eq]
    omega
  unfold commitLine validate
  rw [hf, hi]
  by_cases hk : m.range.1 ≤ k ∧ k < m.range.2
  · simp [inRange_iff, hk]
  · simp [inRange_iff, hk, Invalid.toParseError]

/-! Trimming and case-folding (R71) -/

/-- White space in front is skipped. -/
theorem skipBlanks_append (u v : Text) (h : ∀ c ∈ u, Config.isBlank c = true) :
    skipBlanks (u ++ v) = skipBlanks v := by
  unfold skipBlanks
  rw [List.dropWhile_append_of_pos h]

/-- Folding a character is the library's lower case. -/
theorem foldChar_eq_toLower (c : Char) : foldChar c = c.toLower := by
  by_cases h : 'A' ≤ c ∧ c ≤ 'Z'
  · have h1 : 65 ≤ c.toNat := h.1
    have h2 : c.toNat ≤ 90 := h.2
    have all : ∀ n : Nat, n ≤ 90 → 65 ≤ n →
        foldChar (Char.ofNat n) = (Char.ofNat n).toLower := by
      intro n hn hn'
      interval_cases n <;> decide
    simpa [Char.ofNat_toNat] using all c.toNat h2 h1
  · rw [foldChar, if_neg h]
    unfold Char.toLower
    split
    · rename_i g
      exact absurd ⟨g.1, g.2⟩ h
    · rfl

/-- A trimmed line neither begins nor ends with white space. -/
theorem trim_ends (u : Text) : (∀ c ∈ (trim u).head?, Config.isBlank c = false) ∧
    (∀ c ∈ (trim u).getLast?, Config.isBlank c = false) := by
  have hsb : ∀ u : Text, ∀ c ∈ (skipBlanks u).head?, Config.isBlank c = false := by
    intro u
    induction u with
    | nil => simp [skipBlanks]
    | cons a u ih =>
      unfold skipBlanks at ih ⊢
      rw [List.dropWhile_cons]
      split
      · exact ih
      · rename_i h; intro c hc; simp at hc; subst hc; simpa using h
  refine ⟨?_, ?_⟩
  · intro c hc
    unfold trim at hc
    -- reverse (dropWhile (reverse v)) is a prefix of v
    have hpre : (skipBlanks (skipBlanks u).reverse).reverse <+: skipBlanks u := by
      rw [← List.reverse_suffix, List.reverse_reverse]; exact List.dropWhile_suffix _
    obtain ⟨t, ht⟩ := hpre
    apply hsb u c
    rw [← ht]
    rw [Option.mem_def] at hc
    rw [Option.mem_def, List.head?_append, hc]; rfl
  · intro c hc
    unfold trim at hc
    rw [List.getLast?_reverse] at hc
    exact hsb _ c hc

/-- Folding a character keeps white space and the comment marker's slash what they are, and twice is
once. -/
theorem foldChar_spec (c : Char) :
    Config.isBlank (foldChar c) = Config.isBlank c ∧ foldChar (foldChar c) = foldChar c ∧
      (foldChar c = '/' ↔ c = '/') := by
  by_cases h : 'A' ≤ c ∧ c ≤ 'Z'
  · have h1 : 65 ≤ c.toNat := h.1
    have h2 : c.toNat ≤ 90 := h.2
    have : ∀ n : Nat, n ≤ 90 → 65 ≤ n →
        (Config.isBlank (foldChar (Char.ofNat n)) = Config.isBlank (Char.ofNat n) ∧
        foldChar (foldChar (Char.ofNat n)) = foldChar (Char.ofNat n) ∧
        (foldChar (Char.ofNat n) = '/' ↔ Char.ofNat n = '/')) := by
      intro n hn hn'; interval_cases n <;> decide
    have := this c.toNat h2 h1
    simpa [Char.ofNat_toNat] using this
  · have e : foldChar c = c := by simp [foldChar, h]
    rw [e, e]; exact ⟨rfl, rfl, Iff.rfl⟩

/-- Skipping white space and folding commute. -/
theorem skipBlanks_fold (u : Text) : skipBlanks (fold u) = fold (skipBlanks u) := by
  induction u with
  | nil => rfl
  | cons c u ih =>
    unfold skipBlanks fold at ih ⊢
    simp only [List.map_cons, List.dropWhile_cons, (foldChar_spec c).1]
    split
    · exact ih
    · rfl

end Sys2Proof.Machine
end

