-- ==== Sys2Proof/Laws/Bits.lean ====
section
/-! SUPPORT. The integer formulas of the rules as 64-bit vector arithmetic, and as natural numbers mod
2^64. -/

namespace Sys2Proof.Machine

/-- The value of `u64`: the residue mod 2^64 (00_scope.md R13). -/
theorem u64_toNat (v : Int) : ((u64 v).toNat : Int) = v % 2 ^ 64 := by
  unfold u64
  rw [BitVec.toNat_ofInt]
  omega

theorem u64_uval_add (a b : Word) : u64 (uval a + uval b) = a + b := by
  apply BitVec.eq_of_toNat_eq
  have h := u64_toNat (uval a + uval b)
  rw [BitVec.toNat_add]
  unfold uval at h ⊢
  omega

theorem u64_uval_sub (a b : Word) : u64 (uval a - uval b) = a - b := by
  apply BitVec.eq_of_toNat_eq
  have h := u64_toNat (uval a - uval b)
  have hb := b.isLt
  rw [BitVec.toNat_sub]
  unfold uval at h ⊢
  omega

theorem u64_eq_of_emod (v w : Int) (h : v % 2 ^ 64 = w % 2 ^ 64) : u64 v = u64 w := by
  apply BitVec.eq_of_toNat_eq
  have hv := u64_toNat v
  have hw := u64_toNat w
  omega

/-- Two 64-bit values are equal when their unsigned readings agree mod 2^64. -/
theorem eq_u64_of_toNat {a : Word} {v : Int} (h : (a.toNat : Int) = v % 2 ^ 64) : a = u64 v := by
  apply BitVec.eq_of_toNat_eq
  have := u64_toNat v
  omega

/-- The byte address of a slot and back: an aligned address is eight times its slot (20_memory.md R41). -/
theorem slotOf_toNat (addr : Word) : (slotOf addr).toNat = addr.toNat / 8 := by
  unfold slotOf
  rw [BitVec.extractLsb'_toNat, Nat.shiftRight_eq_div_pow]
  have := addr.isLt
  omega

end Sys2Proof.Machine
end

