-- ==== Sys2Proof/Laws/ContextRange.lean ====
section
/-! SUPPORT. What inserting one range does to a list of ranges that do not touch (20_memory.md R55). -/

namespace Sys2Proof.Machine

/-- Inserting a range adds exactly its slots, keeps the ranges non-empty, ascending and apart, and puts
no range lower than all before it. -/
theorem insertRange_spec (l : List (Nat × Nat)) : ∀ r : Nat × Nat, r.1 ≤ r.2 →
    (∀ x ∈ l, x.1 ≤ x.2) → l.Pairwise (fun a b => a.2 + 1 < b.1) →
   (∀ t, (∃ x ∈ insertRange r l, x.1 ≤ t ∧ t ≤ x.2) ↔
     (r.1 ≤ t ∧ t ≤ r.2) ∨ ∃ x ∈ l, x.1 ≤ t ∧ t ≤ x.2) ∧
   (∀ x ∈ insertRange r l, x.1 ≤ x.2) ∧ (insertRange r l).Pairwise (fun a b => a.2 + 1 < b.1) ∧
   (∀ b, b < r.1 → (∀ x ∈ l, b < x.1) → ∀ x ∈ insertRange r l, b < x.1) := by
  induction l with
  | nil => 
    intro r hr _ _
    simp [insertRange, hr]
  | cons c l ih =>
    obtain ⟨a, b⟩ := c
    intro r hr hl hp
    have hab : a ≤ b := hl (a, b) (List.mem_cons_self ..)
    have hl' : ∀ x ∈ l, x.1 ≤ x.2 := fun x hx => hl x (List.mem_cons_of_mem _ hx)
    obtain ⟨hb, hp'⟩ := List.pairwise_cons.1 hp
    unfold insertRange
    split
    · rename_i h
      refine ⟨by intro t; simp, ?_, ?_, ?_⟩
      · intro x hx; rcases List.mem_cons.1 hx with rfl | hx
        · exact hr
        · exact hl x hx
      · refine List.Pairwise.cons ?_ hp
        intro x hx; rcases List.mem_cons.1 hx with rfl | hx
        · exact h
        · have := hb x hx; dsimp only at this; omega
      · intro z hz hz' x hx; rcases List.mem_cons.1 hx with rfl | hx
        · exact hz
        · exact hz' x hx
    · split
      · rename_i h1 h2
        obtain ⟨i1, i2, i3, i4⟩ := ih r hr hl' hp'
        refine ⟨?_, ?_, ?_, ?_⟩
        · intro t
          simp only [List.mem_cons, exists_eq_or_imp, i1 t]
          constructor
          · rintro (h | h | h)
            · exact .inr (.inl h)
            · exact .inl h
            · exact .inr (.inr h)
          · rintro (h | h | h)
            · exact .inr (.inl h)
            · exact .inl h
            · exact .inr (.inr h)
        · intro x hx; rcases List.mem_cons.1 hx with rfl | hx
          · exact hab
          · exact i2 x hx
        · refine List.Pairwise.cons ?_ i3
          exact i4 (b + 1) h2 hb
        · intro z hz hz' x hx; rcases List.mem_cons.1 hx with rfl | hx
          · exact hz' _ (List.mem_cons_self ..)
          · exact i4 z hz (fun x hx => hz' x (List.mem_cons_of_mem _ hx)) x hx
      · rename_i h1 h2
        obtain ⟨i1, i2, i3, i4⟩ := ih (min a r.1, max b r.2) (by dsimp only; omega) hl' hp'
        refine ⟨?_, i2, i3, ?_⟩
        · intro t
          rw [i1 t]
          simp only [List.mem_cons, exists_eq_or_imp]
          constructor
          · rintro (h | h)
            · by_cases hh : r.1 ≤ t ∧ t ≤ r.2
              · exact .inl hh
              · refine .inr (.inl ?_); omega
            · exact .inr (.inr h)
          · rintro (h | h | h)
            · left; omega
            · left; omega
            · exact .inr h
        · intro z hz hz' x hx
          have := hz' (a, b) (List.mem_cons_self ..)
          exact i4 z (by dsimp only at this ⊢; omega) (fun x hx => hz' x (List.mem_cons_of_mem _ hx)) x hx

end Sys2Proof.Machine
end

