-- ==== Sys2Proof/Laws/Decode.lean ====
section
/-! SUPPORT. The binary layout: masks and fields of an encoded word, a word as the concatenation of its
fields, and the rows of the opcode map (30_encoding.md R62 to R67). -/

namespace Sys2Proof

/-- A mask over a concatenation masks each part. -/
theorem and_of_append {v w : Nat} (a c : BitVec v) (b d : BitVec w) :
    (a ++ b) &&& (c ++ d) = (a &&& c) ++ (b &&& d) := by
  apply BitVec.eq_of_getLsbD_eq
  intro i _
  simp only [BitVec.getLsbD_and, BitVec.getLsbD_append]
  split <;> rfl

/-! The rows -/

/-- Two rows that accept one word agree on the bits both of them fix. -/
theorem accepts_agree (w : InstrWord) (r₁ r₂ : OpRow) (h₁ : r₁.accepts w = true)
    (h₂ : r₂.accepts w = true) : r₁.pattern &&& r₂.mask = r₂.pattern &&& r₁.mask := by
  simp only [OpRow.accepts, beq_iff_eq] at h₁ h₂
  rw [← h₁, ← h₂, BitVec.and_assoc, BitVec.and_assoc, BitVec.and_comm r₁.mask]

/-- Two rows of the map that agree on the bits both of them fix are one row. -/
theorem opRows_agree_eq : ∀ r₁ ∈ opRows, ∀ r₂ ∈ opRows,
    r₁.pattern &&& r₂.mask = r₂.pattern &&& r₁.mask → r₁ = r₂ := by decide

/-- A word that matches no row has no operation. -/
theorem opOf_eq_none (w : InstrWord) (h : ∀ row ∈ opRows, w &&& row.mask ≠ row.pattern) :
    opOf w = none := by
  unfold opOf
  rw [Option.map_eq_none_iff, List.find?_eq_none]
  intro r hr
  simp [OpRow.accepts, h r hr]

/-- A word that has an operation matches that operation's row. -/
theorem opOf_eq_some (w : InstrWord) (o : Op) (h : opOf w = some o) :
    ∃ r ∈ opRows, r.op = o ∧ w &&& r.mask = r.pattern := by
  unfold opOf at h
  obtain ⟨r, hf, rfl⟩ := Option.map_eq_some_iff.1 h
  have ha := List.find?_some hf
  simp only [OpRow.accepts, beq_iff_eq] at ha
  exact ⟨r, List.mem_of_find?_eq_some hf, rfl, ha⟩

/-- The word of a rejection is the word rejected (R67). -/
theorem reject_word (w : InstrWord) : (reject w).word = w := by
  unfold reject
  split
  · rfl
  · split <;> rfl

/-! Masks of encoded words -/

theorem encodeR_mask (o : BitVec 11) (d n m : RegIdx) :
    encodeR o d n m &&& 0xFFE0FC00#32 = encodeR o 0#5 0#5 0#5 := by
  have hm : 0xFFE0FC00#32 =
      (BitVec.allOnes 11 ++ 0#5 ++ BitVec.allOnes 6 ++ 0#5 ++ 0#5 : BitVec (11 + 5 + 6 + 5 + 5)) := by
    decide
  rw [hm]
  unfold encodeR
  rw [and_of_append, and_of_append, and_of_append, and_of_append]
  simp only [BitVec.and_allOnes, BitVec.and_zero]

theorem encodeI_mask (o : BitVec 10) (d n : RegIdx) (k : BitVec 12) :
    encodeI o d n k &&& 0xFFC00000#32 = encodeI o 0#5 0#5 0#12 := by
  have hm : 0xFFC00000#32 =
      (BitVec.allOnes 10 ++ 0#12 ++ 0#5 ++ 0#5 : BitVec (10 + 12 + 5 + 5)) := by decide
  rw [hm]
  unfold encodeI
  rw [and_of_append, and_of_append, and_of_append]
  simp only [BitVec.and_allOnes, BitVec.and_zero]

theorem encodeD_mask (o : BitVec 11) (t n : RegIdx) (f : BitVec 9) :
    encodeD o t n f &&& 0xFFE00C00#32 = encodeD o 0#5 0#5 0#9 := by
  have hm : 0xFFE00C00#32 =
      (BitVec.allOnes 11 ++ 0#9 ++ BitVec.allOnes 2 ++ 0#5 ++ 0#5 : BitVec (11 + 9 + 2 + 5 + 5)) := by
    decide
  rw [hm]
  unfold encodeD
  rw [and_of_append, and_of_append, and_of_append, and_of_append]
  simp only [BitVec.and_allOnes, BitVec.and_zero]

theorem encodeCB_mask (o : BitVec 8) (t : RegIdx) (k : BitVec 19) :
    encodeCB o t k &&& 0xFF000000#32 = encodeCB o 0#5 0#19 := by
  have hm : 0xFF000000#32 = (BitVec.allOnes 8 ++ 0#19 ++ 0#5 : BitVec (8 + 19 + 5)) := by decide
  rw [hm]
  unfold encodeCB
  rw [and_of_append, and_of_append]
  simp only [BitVec.and_allOnes, BitVec.and_zero]

theorem encodeB_mask (o : BitVec 6) (k : BitVec 26) :
    ((o ++ k : BitVec (6 + 26)) : InstrWord) &&& 0xFC000000#32 = (o ++ 0#26 : BitVec (6 + 26)) := by
  have hm : 0xFC000000#32 = (BitVec.allOnes 6 ++ 0#26 : BitVec (6 + 26)) := by decide
  rw [hm, and_of_append]
  simp only [BitVec.and_allOnes, BitVec.and_zero]

/-! Fields of encoded words -/

theorem encodeR_fields (o : BitVec 11) (d n m : RegIdx) :
    fieldRd (encodeR o d n m) = d ∧ fieldRn (encodeR o d n m) = n ∧ fieldRm (encodeR o d n m) = m := by
  unfold fieldRd fieldRn fieldRm encodeR
  refine ⟨?_, ?_, ?_⟩
  · rw [BitVec.extractLsb'_append_eq_of_add_le (by omega)]
    simp
  · rw [BitVec.extractLsb'_append_eq_of_le (by omega),
      BitVec.extractLsb'_append_eq_of_add_le (by omega)]
    simp
  · rw [BitVec.extractLsb'_append_eq_of_le (by omega), BitVec.extractLsb'_append_eq_of_le (by omega),
      BitVec.extractLsb'_append_eq_of_le (by omega), BitVec.extractLsb'_append_eq_of_add_le (by omega)]
    simp

theorem encodeI_fields (o : BitVec 10) (d n : RegIdx) (k : BitVec 12) :
    fieldRd (encodeI o d n k) = d ∧ fieldRn (encodeI o d n k) = n ∧
      fieldImm12 (encodeI o d n k) = k := by
  unfold fieldRd fieldRn fieldImm12 encodeI
  refine ⟨?_, ?_, ?_⟩
  · rw [BitVec.extractLsb'_append_eq_of_add_le (by omega)]
    simp
  · rw [BitVec.extractLsb'_append_eq_of_le (by omega),
      BitVec.extractLsb'_append_eq_of_add_le (by omega)]
    simp
  · rw [BitVec.extractLsb'_append_eq_of_le (by omega), BitVec.extractLsb'_append_eq_of_le (by omega),
      BitVec.extractLsb'_append_eq_of_add_le (by omega)]
    simp

theorem encodeD_fields (o : BitVec 11) (t n : RegIdx) (f : BitVec 9) :
    fieldRd (encodeD o t n f) = t ∧ fieldRn (encodeD o t n f) = n ∧
      fieldOff9 (encodeD o t n f) = f := by
  unfold fieldRd fieldRn fieldOff9 encodeD
  refine ⟨?_, ?_, ?_⟩
  · rw [BitVec.extractLsb'_append_eq_of_add_le (by omega)]
    simp
  · rw [BitVec.extractLsb'_append_eq_of_le (by omega),
      BitVec.extractLsb'_append_eq_of_add_le (by omega)]
    simp
  · rw [BitVec.extractLsb'_append_eq_of_le (by omega), BitVec.extractLsb'_append_eq_of_le (by omega),
      BitVec.extractLsb'_append_eq_of_le (by omega), BitVec.extractLsb'_append_eq_of_add_le (by omega)]
    simp

theorem encodeCB_fields (o : BitVec 8) (t : RegIdx) (k : BitVec 19) :
    fieldRd (encodeCB o t k) = t ∧ fieldImm19 (encodeCB o t k) = k := by
  unfold fieldRd fieldImm19 encodeCB
  refine ⟨?_, ?_⟩
  · rw [BitVec.extractLsb'_append_eq_of_add_le (by omega)]
    simp
  · rw [BitVec.extractLsb'_append_eq_of_le (by omega),
      BitVec.extractLsb'_append_eq_of_add_le (by omega)]
    simp

theorem encodeB_field (o : BitVec 6) (k : BitVec 26) :
    fieldImm26 (o ++ k : BitVec (6 + 26)) = k := by
  unfold fieldImm26
  rw [BitVec.extractLsb'_append_eq_of_add_le (by omega)]
  simp

/-! A word is the concatenation of its fields -/

theorem word_eq_fieldsR (w : InstrWord) :
    (fieldOpcode11 w ++ fieldRm w ++ fieldShamt w ++ fieldRn w ++ fieldRd w : BitVec (11 + 5 + 6 + 5 + 5))
      = w := by
  apply BitVec.eq_of_getLsbD_eq
  intro i hi
  simp only [fieldOpcode11, fieldRm, fieldShamt, fieldRn, fieldRd, BitVec.getLsbD_append,
    BitVec.getLsbD_extractLsb']
  interval_cases i <;> rfl

theorem word_eq_fieldsD (w : InstrWord) :
    (fieldOpcode11 w ++ fieldOff9 w ++ fieldOp w ++ fieldRn w ++ fieldRd w : BitVec (11 + 9 + 2 + 5 + 5))
      = w := by
  apply BitVec.eq_of_getLsbD_eq
  intro i hi
  simp only [fieldOpcode11, fieldOff9, fieldOp, fieldRn, fieldRd, BitVec.getLsbD_append,
    BitVec.getLsbD_extractLsb']
  interval_cases i <;> rfl

theorem word_eq_fieldsI (w : InstrWord) :
    (w.extractLsb' 22 10 ++ fieldImm12 w ++ fieldRn w ++ fieldRd w : BitVec (10 + 12 + 5 + 5)) = w := by
  apply BitVec.eq_of_getLsbD_eq
  intro i hi
  simp only [fieldImm12, fieldRn, fieldRd, BitVec.getLsbD_append, BitVec.getLsbD_extractLsb']
  interval_cases i <;> rfl

theorem word_eq_fieldsCB (w : InstrWord) :
    (w.extractLsb' 24 8 ++ fieldImm19 w ++ fieldRd w : BitVec (8 + 19 + 5)) = w := by
  apply BitVec.eq_of_getLsbD_eq
  intro i hi
  simp only [fieldImm19, fieldRd, BitVec.getLsbD_append, BitVec.getLsbD_extractLsb']
  interval_cases i <;> rfl

theorem word_eq_fieldsB (w : InstrWord) :
    (w.extractLsb' 26 6 ++ fieldImm26 w : BitVec (6 + 26)) = w := by
  apply BitVec.eq_of_getLsbD_eq
  intro i hi
  simp only [fieldImm26, BitVec.getLsbD_append, BitVec.getLsbD_extractLsb']
  interval_cases i <;> rfl

/-- A field that a mask keeps whole has the pattern's value in a word that matches. -/
theorem field_of_masked {w mask pattern : InstrWord} (h : w &&& mask = pattern) (start len : Nat)
    (hm : mask.extractLsb' start len = BitVec.allOnes len) :
    w.extractLsb' start len = pattern.extractLsb' start len := by
  rw [← h, BitVec.extractLsb'_and, hm, BitVec.and_allOnes]

end Sys2Proof
end

