-- ==== Sys2Proof/Laws/Memory.lean ====
section
/-! SUPPORT. The data memory: read after write, and that every operation keeps the canonical form
(20_memory.md R40 to R44). -/

namespace Sys2Proof.Machine

/-- Every listed slot of `m` lies above `k`. -/
def Memory.above (k : Nat) (m : Memory) : Prop := ∀ c ∈ m, k < c.1

/-- The canonical form of a non-empty memory, one cell at a time. -/
theorem Memory.wf_cons (k : Nat) (v : Word) (m : Memory) :
    Memory.wf ((k, v) :: m) = true ↔
      k < Config.slotCount ∧ v ≠ 0#64 ∧ Memory.above k m ∧ Memory.wf m = true := by
  simp [Memory.wf, Memory.above, and_assoc]

/-- A slot below every listed one reads 0. -/
theorem Memory.get_below (m : Memory) (k a : Nat) (h : Memory.above k m) (ha : a ≤ k) :
    Memory.get m a = 0#64 := by
  induction m with
  | nil => rfl
  | cons c m ih =>
    have hc := h c (List.mem_cons_self ..)
    have hne : a ≠ c.1 := by omega
    simp only [Memory.get, hne, if_false]
    exact ih (fun d hd => h d (List.mem_cons_of_mem _ hd))

/-- A write keeps what lies above `k` above `k`. -/
theorem Memory.set_above (m : Memory) (k a : Nat) (v : Word) (h : Memory.above k m) (ha : k < a) :
    Memory.above k (Memory.set m a v) := by
  induction m with
  | nil =>
    simp only [Memory.set]
    split
    · intro c hc; cases hc
    · intro c hc; simp at hc; subst hc; exact ha
  | cons c m ih =>
    obtain ⟨b, w⟩ := c
    have hb : k < b := h (b, w) (List.mem_cons_self ..)
    have hm : Memory.above k m := fun d hd => h d (List.mem_cons_of_mem _ hd)
    have hcons : ∀ (x : Nat × Word) (l : Memory), k < x.1 → Memory.above k l →
        Memory.above k (x :: l) := by
      intro x l hx hl c hc
      rcases List.mem_cons.1 hc with rfl | hc
      · exact hx
      · exact hl c hc
    simp only [Memory.set]
    split
    · split
      · exact h
      · exact hcons _ _ ha h
    · split
      · split
        · exact hm
        · exact hcons _ _ ha hm
      · exact hcons _ _ hb (ih hm)

/-- A write keeps the canonical form (R44). -/
theorem Memory.set_wf (m : Memory) (a : Nat) (v : Word) (h : m.wf = true)
    (ha : a < Config.slotCount) : (Memory.set m a v).wf = true := by
  induction m with
  | nil =>
    simp only [Memory.set]
    split
    · rfl
    · rename_i hv
      rw [Memory.wf_cons]
      exact ⟨ha, hv, fun c hc => absurd hc (by simp), rfl⟩
  | cons c m ih =>
    obtain ⟨b, w⟩ := c
    have h0 := h
    rw [Memory.wf_cons] at h
    obtain ⟨hb, hw, hab, hm⟩ := h
    simp only [Memory.set]
    split
    · rename_i hlt
      split
      · exact h0
      · rename_i hv
        rw [Memory.wf_cons]
        refine ⟨ha, hv, ?_, h0⟩
        intro d hd
        rcases List.mem_cons.1 hd with rfl | hd
        · exact hlt
        · exact Nat.lt_trans hlt (hab d hd)
    · split
      · rename_i heq
        subst heq
        split
        · exact hm
        · rename_i hv
          exact (Memory.wf_cons ..).2 ⟨ha, hv, hab, hm⟩
      · rename_i hnlt hne
        rw [Memory.wf_cons]
        exact ⟨hb, hw, Memory.set_above m b a v hab (by omega), ih hm⟩

/-- A read after a write: the written word at its slot, every other slot as before (R43). -/
theorem Memory.get_set (m : Memory) (a b : Nat) (v : Word) (h : m.wf = true) :
    Memory.get (Memory.set m a v) b = if b = a then v else Memory.get m b := by
  induction m with
  | nil =>
    simp only [Memory.set]
    split
    · rename_i hv; subst hv; simp [Memory.get]
    · simp [Memory.get]
  | cons c m ih =>
    obtain ⟨k, w⟩ := c
    rw [Memory.wf_cons] at h
    obtain ⟨-, -, hab, hm⟩ := h
    have habove : ∀ x, x ≤ k → Memory.get m x = 0#64 := fun x hx => Memory.get_below m k x hab hx
    simp only [Memory.set]
    split
    · rename_i hlt
      split
      · rename_i hv
        subst hv
        by_cases hba : b = a
        · subst hba
          have : b ≠ k := by omega
          simp [Memory.get, this, habove b (by omega)]
        · simp [hba]
      · by_cases hba : b = a <;> simp [Memory.get, hba]
    · split
      · rename_i heq
        subst heq
        split
        · rename_i hv
          subst hv
          by_cases hba : b = a
          · subst hba; simp [habove b (Nat.le_refl _)]
          · simp [Memory.get, hba]
        · by_cases hba : b = a <;> simp [Memory.get, hba]
      · rename_i hnlt hne
        have := ih hm
        by_cases hbk : b = k
        · subst hbk
          have : b ≠ a := fun e => hne e.symm
          simp [Memory.get, this]
        · simp only [Memory.get, hbk, if_false]; exact this

/-- A listed slot reads its word, which is not 0; an unlisted slot reads 0 (R40, R44). -/
theorem Memory.mem_used (m : Memory) (h : m.wf = true) (k : Nat) :
    k ∈ m.used ↔ Memory.get m k ≠ 0#64 := by
  induction m with
  | nil => simp [Memory.used, Memory.get]
  | cons c m ih =>
    obtain ⟨b, w⟩ := c
    rw [Memory.wf_cons] at h
    obtain ⟨-, hw, hab, hm⟩ := h
    have ih := ih hm
    simp only [Memory.used, List.map_cons, List.mem_cons] at ih ⊢
    by_cases hkb : k = b
    · subst hkb; simp [Memory.get, hw]
    · simp only [Memory.get, hkb, if_false, false_or]; exact ih

/-- The alignment check in one lemma (R42, R46). -/
theorem accessSlot_cases (addr : Word) :
    (addr.toNat % 8 = 0 ∧ accessSlot addr = .ok (slotOf addr)) ∨
      (addr.toNat % 8 ≠ 0 ∧ accessSlot addr = .error (.alignmentError addr)) := by
  by_cases h : addr.toNat % 8 = 0
  · exact .inl ⟨h, by simp [accessSlot, Config.wordBytes, h]⟩
  · exact .inr ⟨h, by simp [accessSlot, Config.wordBytes, h]⟩

/-- Two aligned addresses with the same slot are the same address (R41). -/
theorem slotOf_inj {a b : Word} (ha : a.toNat % 8 = 0) (hb : b.toNat % 8 = 0)
    (h : (slotOf a).toNat = (slotOf b).toNat) : a = b := by
  rw [slotOf_toNat, slotOf_toNat] at h
  exact BitVec.eq_of_toNat_eq (by omega)

/-- A read at an aligned address (R42). -/
theorem memRead_aligned (m : Memory) (a : Word) (h : a.toNat % 8 = 0) :
    memRead m a = .ok (m.get (slotOf a).toNat) := by
  unfold memRead
  rcases accessSlot_cases a with ⟨-, e⟩ | ⟨h', -⟩
  · rw [e]
  · exact absurd h h'

/-- A read at any other address (R42, R46). -/
theorem memRead_misaligned (m : Memory) (a : Word) (h : a.toNat % 8 ≠ 0) :
    memRead m a = .error (.alignmentError a) := by
  unfold memRead
  rcases accessSlot_cases a with ⟨h', -⟩ | ⟨-, e⟩
  · exact absurd h' h
  · rw [e]

/-- What every address but the one written reads after a word is stored at an aligned address (R43). -/
theorem memRead_set_other (m : Memory) (a b v : Word) (h : m.wf = true) (ha : a.toNat % 8 = 0)
    (hb : b ≠ a) : memRead (m.set (slotOf a).toNat v) b = memRead m b := by
  by_cases h8 : b.toNat % 8 = 0
  · rw [memRead_aligned _ _ h8, memRead_aligned _ _ h8, Memory.get_set _ _ _ _ h]
    have : (slotOf b).toNat ≠ (slotOf a).toNat := fun e => hb (slotOf_inj h8 ha e)
    simp [this]
  · rw [memRead_misaligned _ _ h8, memRead_misaligned _ _ h8]

/-- The memory after any data request is in canonical form (R44). -/
theorem Memory.apply_wf (m : Memory) (r : DataRequest) (h : m.wf = true) : (m.apply r).wf = true := by
  cases r with
  | idle => exact h
  | read slot => exact h
  | write slot v => exact Memory.set_wf m slot.toNat v h slot.isLt

/-- The host's memory write keeps the canonical form (R43). -/
theorem memWrite_wf (m m' : Memory) (addr v : Word) (h : m.wf = true)
    (hw : memWrite m addr v = .ok m') : m'.wf = true := by
  unfold memWrite at hw
  rcases accessSlot_cases addr with ⟨-, e⟩ | ⟨-, e⟩ <;> rw [e] at hw
  · cases hw; exact Memory.set_wf m _ v h (slotOf addr).isLt
  · cases hw

/-- The memory a snapshot's mapping loads is in canonical form (R138). -/
theorem loadMemory_wf (l : List (Nat × Word)) (h : mappingOk l = true) : (loadMemory l).wf = true := by
  induction l with
  | nil => rfl
  | cons c l ih =>
    simp only [mappingOk, Bool.and_eq_true, decide_eq_true_eq] at h
    exact Memory.set_wf _ c.1 c.2 (ih h.2) h.1.1

/-- Reset's memory is in canonical form. -/
theorem reset_wf : State.reset.mem.wf = true := rfl

end Sys2Proof.Machine
end

