-- ==== Sys2Proof/Laws/PerInstr.lean ====
section
/-! SUPPORT. The per-instruction family Validation: the record of every decoded instruction passes the
validator and comes back as the instruction (30_encoding.md R58, R60). -/

/-- Validating an instruction's record gives the instruction. -/
def Sys2Proof.Laws.Validation.Statement (i : Sys2Proof.Instr) : Prop :=
  Sys2Proof.Machine.validate (Sys2Proof.Machine.record i) = .ok i

open Sys2Proof Sys2Proof.Machine

/-- The record is well formed, and narrowing it gives the instruction back. -/
theorem Sys2Proof.Laws.Validation.all (i : Instr) : Sys2Proof.Laws.Validation.Statement i :=
  (validate_wellFormed _ (record_wellFormed i)).trans (congrArg _ (narrow_record i))

theorem Sys2Proof.Laws.Validation.add (rd rn rm : RegIdx) :
    Sys2Proof.Laws.Validation.Statement (.add rd rn rm) := Sys2Proof.Laws.Validation.all _

theorem Sys2Proof.Laws.Validation.sub (rd rn rm : RegIdx) :
    Sys2Proof.Laws.Validation.Statement (.sub rd rn rm) := Sys2Proof.Laws.Validation.all _

theorem Sys2Proof.Laws.Validation.addi (rd rn : RegIdx) (imm : BitVec 12) :
    Sys2Proof.Laws.Validation.Statement (.addi rd rn imm) := Sys2Proof.Laws.Validation.all _

theorem Sys2Proof.Laws.Validation.subi (rd rn : RegIdx) (imm : BitVec 12) :
    Sys2Proof.Laws.Validation.Statement (.subi rd rn imm) := Sys2Proof.Laws.Validation.all _

theorem Sys2Proof.Laws.Validation.ldur (rt rn : RegIdx) (off : BitVec 9) :
    Sys2Proof.Laws.Validation.Statement (.ldur rt rn off) := Sys2Proof.Laws.Validation.all _

theorem Sys2Proof.Laws.Validation.stur (rt rn : RegIdx) (off : BitVec 9) :
    Sys2Proof.Laws.Validation.Statement (.stur rt rn off) := Sys2Proof.Laws.Validation.all _

theorem Sys2Proof.Laws.Validation.b (imm : BitVec 26) :
    Sys2Proof.Laws.Validation.Statement (.b imm) := Sys2Proof.Laws.Validation.all _

theorem Sys2Proof.Laws.Validation.cbz (rt : RegIdx) (imm : BitVec 19) :
    Sys2Proof.Laws.Validation.Statement (.cbz rt imm) := Sys2Proof.Laws.Validation.all _

theorem Sys2Proof.Laws.Validation.cbnz (rt : RegIdx) (imm : BitVec 19) :
    Sys2Proof.Laws.Validation.Statement (.cbnz rt imm) := Sys2Proof.Laws.Validation.all _

theorem Sys2Proof.Laws.Validation.none :
    Sys2Proof.Laws.Validation.Statement .none := Sys2Proof.Laws.Validation.all _

theorem Sys2Proof.Laws.Validation.comment (text : Text) :
    Sys2Proof.Laws.Validation.Statement (.comment text) := Sys2Proof.Laws.Validation.all _
end

