-- ==== Sys2Proof/Laws/State.lean ====
section
/-! SUPPORT. One lemma per field of the state per update, so that no later proof unfolds a record
update. -/

namespace Sys2Proof.Machine

/-! `writeReg` -/

@[simp] theorem State.writeReg_regs (s : State) (i : RegIdx) (v : Word) :
    (s.writeReg i v).regs = s.regs.write i v := rfl
@[simp] theorem State.writeReg_pc (s : State) (i : RegIdx) (v : Word) : (s.writeReg i v).pc = s.pc := rfl
@[simp] theorem State.writeReg_mem (s : State) (i : RegIdx) (v : Word) :
    (s.writeReg i v).mem = s.mem := rfl
@[simp] theorem State.writeReg_prog (s : State) (i : RegIdx) (v : Word) :
    (s.writeReg i v).prog = s.prog := rfl
@[simp] theorem State.writeReg_answer (s : State) (i : RegIdx) (v : Word) :
    (s.writeReg i v).answer = s.answer := rfl

/-! `stop` -/

@[simp] theorem State.stop_regs (s : State) : s.stop.regs = s.regs := rfl
@[simp] theorem State.stop_pc (s : State) : s.stop.pc = s.pc := rfl
@[simp] theorem State.stop_mem (s : State) : s.stop.mem = s.mem := rfl
@[simp] theorem State.stop_prog (s : State) : s.stop.prog = s.prog := rfl
@[simp] theorem State.stop_answer (s : State) :
    s.stop.answer = some { outcome := .shouldStop, ifIndex := s.pc, request := .idle } := rfl
@[simp] theorem State.stop_lastOutcome (s : State) : s.stop.lastOutcome = some .shouldStop := rfl
@[simp] theorem State.stop_readReg (s : State) (i : RegIdx) : s.stop.readReg i = s.readReg i := rfl
@[simp] theorem State.stop_fetch (s : State) : s.stop.fetch = s.fetch := rfl

/-! `commit` -/

@[simp] theorem State.commit_regs (s : State) (e : Effects) :
    (s.commit e).regs = s.regs.apply e.reg := rfl
@[simp] theorem State.commit_pc (s : State) (e : Effects) :
    (s.commit e).pc = u64 (uval s.pc + e.delta) := rfl
@[simp] theorem State.commit_mem (s : State) (e : Effects) :
    (s.commit e).mem = s.mem.apply e.request := rfl
@[simp] theorem State.commit_prog (s : State) (e : Effects) : (s.commit e).prog = s.prog := rfl
@[simp] theorem State.commit_answer (s : State) (e : Effects) :
    (s.commit e).answer =
      some { outcome := .keepRunning, ifIndex := s.pc, request := e.request } := rfl
@[simp] theorem State.commit_lastOutcome (s : State) (e : Effects) :
    (s.commit e).lastOutcome = some .keepRunning := rfl

/-! The record of the outputs -/

@[simp] theorem State.readReg_setAnswer (s : State) (a : Option Answer) (i : RegIdx) :
    ({ s with answer := a } : State).readReg i = s.readReg i := rfl
@[simp] theorem State.commit_setAnswer (s : State) (a : Option Answer) (e : Effects) :
    ({ s with answer := a } : State).commit e = s.commit e := rfl
@[simp] theorem State.stop_setAnswer (s : State) (a : Option Answer) :
    ({ s with answer := a } : State).stop = s.stop := rfl
@[simp] theorem State.fetch_setAnswer (s : State) (a : Option Answer) :
    ({ s with answer := a } : State).fetch = s.fetch := rfl

/-! The host's pc -/

@[simp] theorem State.hostSetPc_pc (s : State) (v : Word) : (s.hostSetPc v).pc = v := rfl
@[simp] theorem State.hostSetPc_regs (s : State) (v : Word) : (s.hostSetPc v).regs = s.regs := rfl
@[simp] theorem State.hostSetPc_mem (s : State) (v : Word) : (s.hostSetPc v).mem = s.mem := rfl
@[simp] theorem State.hostSetPc_prog (s : State) (v : Word) : (s.hostSetPc v).prog = s.prog := rfl

/-! `withFetchWord` -/

@[simp] theorem State.withFetchWord_regs (s : State) (nbits w : Nat) :
    (s.withFetchWord nbits w).regs = s.regs := rfl
@[simp] theorem State.withFetchWord_pc (s : State) (nbits w : Nat) :
    (s.withFetchWord nbits w).pc = s.pc := rfl
@[simp] theorem State.withFetchWord_mem (s : State) (nbits w : Nat) :
    (s.withFetchWord nbits w).mem = s.mem := rfl
@[simp] theorem State.withFetchWord_answer (s : State) (nbits w : Nat) :
    (s.withFetchWord nbits w).answer = s.answer := rfl

/-! `reset` -/

@[simp] theorem State.reset_pc : State.reset.pc = 0#64 := rfl
@[simp] theorem State.reset_mem : State.reset.mem = [] := rfl
@[simp] theorem State.reset_prog : State.reset.prog = [] := rfl
@[simp] theorem State.reset_answer : State.reset.answer = none := rfl

end Sys2Proof.Machine
end

