-- ==== Sys2Proof/Laws/Registers.lean ====
section
/-! SUPPORT. The register file: what a read gives after a write, and the zero register (10_state.md R22,
R23). -/

namespace Sys2Proof.Machine

/-- An index below 31 is any index but the zero register's. -/
theorem storage_index_iff (i : RegIdx) : i.toNat < 31 ↔ i ≠ 31#5 := by
  constructor
  · rintro h rfl
    exact absurd h (by decide)
  · intro h
    have h32 := i.isLt
    have hne : i.toNat ≠ 31 := fun e => h (BitVec.eq_of_toNat_eq e)
    omega

/-- The zero register reads 0 (R22). -/
theorem RegFile.read_zero (r : RegFile) : r.read 31#5 = 0#64 := rfl

/-- A write to the zero register is discarded (R23). -/
theorem RegFile.write_zero (r : RegFile) (v : Word) : r.write 31#5 v = r := rfl

/-- A write is read back, and every other register reads as before; the zero register reads 0. -/
theorem RegFile.read_write (r : RegFile) (i j : RegIdx) (v : Word) :
    (r.write i v).read j = if j = i ∧ i ≠ 31#5 then v else r.read j := by
  unfold RegFile.write
  by_cases hi : i.toNat < 31
  · simp only [hi, dite_true]
    have hi' := (storage_index_iff i).1 hi
    unfold RegFile.read
    by_cases hj : j.toNat < 31
    · simp only [hj, dite_true]
      rw [Vector.getElem_set]
      by_cases hij : i = j
      · subst hij; simp [hi']
      · have : i.toNat ≠ j.toNat := fun e => hij (BitVec.eq_of_toNat_eq e)
        simp [this, Ne.symm hij]
    · have hne : j ≠ i := fun e => hj (e ▸ hi)
      simp [hj, hne]
  · have hi' : i = 31#5 := Classical.byContradiction fun h => hi ((storage_index_iff i).2 h)
    simp [hi']

theorem RegFile.read_write_same (r : RegFile) (i : RegIdx) (v : Word) (h : i ≠ 31#5) :
    (r.write i v).read i = v := by
  rw [RegFile.read_write]; simp [h]

theorem RegFile.read_write_other (r : RegFile) (i j : RegIdx) (v : Word) (h : j ≠ i) :
    (r.write i v).read j = r.read j := by
  rw [RegFile.read_write]; simp [h]

theorem State.readReg_writeReg (s : State) (i j : RegIdx) (v : Word) :
    (s.writeReg i v).readReg j = if j = i ∧ i ≠ 31#5 then v else s.readReg j :=
  RegFile.read_write s.regs i j v

/-- What every register reads after a commit. -/
theorem State.readReg_commit (s : State) (e : Effects) (j : RegIdx) :
    (s.commit e).readReg j =
      match e.reg with
      | none => s.readReg j
      | some (i, v) => if j = i ∧ i ≠ 31#5 then v else s.readReg j := by
  unfold State.readReg
  rw [State.commit_regs]
  cases e.reg with
  | none => rfl
  | some p => exact RegFile.read_write s.regs p.1 j p.2

end Sys2Proof.Machine
end

