-- ==== Sys2Proof/Laws/Step.lean ====
section
/-! SUPPORT. What a tick can do, said once: every instruction completes with its effects, raises
AlignmentError, or stops. -/

namespace Sys2Proof.Machine

@[simp] theorem State.complete_ok (s : State) (e : Effects) : s.complete (.ok e) = .next (s.commit e) := rfl
@[simp] theorem State.complete_error (s : State) (f : Fault) : s.complete (.error f) = .fault f := rfl

/-- LDUR at an aligned effective address completes (42_load_store.md R103). -/
theorem execLdur_aligned (rt rn : RegIdx) (off : BitVec 9) (s : State)
    (h : (s.effectiveAddress rn off).toNat % 8 = 0) :
    execLdur rt rn off s = .next (s.commit
      { reg := some (rt, s.mem.get (slotOf (s.effectiveAddress rn off)).toNat),
        request := .read (slotOf (s.effectiveAddress rn off)), delta := 1 }) := by
  rcases accessSlot_cases (s.effectiveAddress rn off) with ⟨-, e⟩ | ⟨h', -⟩
  · simp [execLdur, e]
  · exact absurd h h'

/-- LDUR at a misaligned effective address raises (42_load_store.md R102). -/
theorem execLdur_misaligned (rt rn : RegIdx) (off : BitVec 9) (s : State)
    (h : (s.effectiveAddress rn off).toNat % 8 ≠ 0) :
    execLdur rt rn off s = .fault (.alignmentError (s.effectiveAddress rn off)) := by
  rcases accessSlot_cases (s.effectiveAddress rn off) with ⟨h', -⟩ | ⟨-, e⟩
  · exact absurd h' h
  · simp [execLdur, e]

/-- STUR at an aligned effective address completes (42_load_store.md R104). -/
theorem execStur_aligned (rt rn : RegIdx) (off : BitVec 9) (s : State)
    (h : (s.effectiveAddress rn off).toNat % 8 = 0) :
    execStur rt rn off s = .next (s.commit
      { reg := none, request := .write (slotOf (s.effectiveAddress rn off)) (s.readReg rt),
        delta := 1 }) := by
  rcases accessSlot_cases (s.effectiveAddress rn off) with ⟨-, e⟩ | ⟨h', -⟩
  · simp [execStur, e]
  · exact absurd h h'

/-- STUR at a misaligned effective address raises (42_load_store.md R102). -/
theorem execStur_misaligned (rt rn : RegIdx) (off : BitVec 9) (s : State)
    (h : (s.effectiveAddress rn off).toNat % 8 ≠ 0) :
    execStur rt rn off s = .fault (.alignmentError (s.effectiveAddress rn off)) := by
  rcases accessSlot_cases (s.effectiveAddress rn off) with ⟨h', -⟩ | ⟨-, e⟩
  · exact absurd h' h
  · simp [execStur, e]

/-- Everything an instruction can do: complete with some effects, stop, or raise AlignmentError on its
own misaligned effective address. -/
theorem exec_cases (i : Instr) (s : State) :
    (∃ e, exec i s = .next (s.commit e)) ∨
      (exec i s = .next s.stop ∧ (i = .none ∨ ∃ text, i = .comment text)) ∨
      (∃ rt rn off, (i = .ldur rt rn off ∨ i = .stur rt rn off) ∧
        (s.effectiveAddress rn off).toNat % 8 ≠ 0 ∧
        exec i s = .fault (.alignmentError (s.effectiveAddress rn off))) := by
  cases i with
  | add rd rn rm => exact .inl ⟨_, rfl⟩
  | sub rd rn rm => exact .inl ⟨_, rfl⟩
  | addi rd rn imm => exact .inl ⟨_, rfl⟩
  | subi rd rn imm => exact .inl ⟨_, rfl⟩
  | b imm => exact .inl ⟨_, rfl⟩
  | cbz rt imm => exact .inl ⟨_, rfl⟩
  | cbnz rt imm => exact .inl ⟨_, rfl⟩
  | none => exact .inr (.inl ⟨rfl, .inl rfl⟩)
  | comment text => exact .inr (.inl ⟨rfl, .inr ⟨text, rfl⟩⟩)
  | ldur rt rn off =>
    by_cases h : (s.effectiveAddress rn off).toNat % 8 = 0
    · exact .inl ⟨_, execLdur_aligned rt rn off s h⟩
    · exact .inr (.inr ⟨rt, rn, off, .inl rfl, h, execLdur_misaligned rt rn off s h⟩)
  | stur rt rn off =>
    by_cases h : (s.effectiveAddress rn off).toNat % 8 = 0
    · exact .inl ⟨_, execStur_aligned rt rn off s h⟩
    · exact .inr (.inr ⟨rt, rn, off, .inr rfl, h, execStur_misaligned rt rn off s h⟩)

/-- Fetch finds nothing exactly at or beyond PROG_LEN (40_execution_step.md R85). -/
theorem State.fetch_outside (s : State) (h : s.prog.length ≤ s.pc.toNat) : s.fetch = .outside := by
  simp [State.fetch, List.getElem?_eq_none h]

/-- Fetch of a listed entry. -/
theorem State.fetch_entry (s : State) (e : Entry) (h : s.prog[s.pc.toNat]? = some e) :
    s.fetch = e.fetched := by
  simp [State.fetch, h]

/-- Everything a tick can do. -/
theorem step_cases (s : State) :
    (s.fetch = .outside ∧ step s = .next s.stop) ∨
      (∃ w, s.fetch = .illegal w ∧ step s = .fault (.decodeError w)) ∨
      (∃ i, s.fetch = .instr i ∧ step s = exec i s) := by
  unfold step
  cases h : s.fetch with
  | outside => exact .inl ⟨rfl, rfl⟩
  | illegal w => exact .inr (.inl ⟨w, rfl, rfl⟩)
  | instr i => exact .inr (.inr ⟨i, rfl, rfl⟩)

/-- Every next state of a tick is a commit or the same state stopped. -/
theorem step_next (s t : State) (h : step s = .next t) : (∃ e, t = s.commit e) ∨ t = s.stop := by
  rcases step_cases s with ⟨-, e⟩ | ⟨w, -, e⟩ | ⟨i, -, e⟩
  · rw [e] at h; cases h; exact .inr rfl
  · rw [e] at h; cases h
  · rw [e] at h
    rcases exec_cases i s with ⟨eff, e'⟩ | ⟨e', -⟩ | ⟨_, _, _, -, -, e'⟩ <;> rw [e'] at h <;> cases h
    · exact .inl ⟨eff, rfl⟩
    · exact .inr rfl

/-- No instruction is refused. -/
theorem exec_not_refused (i : Instr) (s : State) (r : Refusal) : exec i s ≠ .refused r := by
  rcases exec_cases i s with ⟨_, e⟩ | ⟨e, -⟩ | ⟨_, _, _, -, -, e⟩ <;> rw [e] <;> simp

/-- No tick is refused. -/
theorem step_not_refused (s : State) (r : Refusal) : step s ≠ .refused r := by
  rcases step_cases s with ⟨-, e⟩ | ⟨w, -, e⟩ | ⟨i, -, e⟩ <;> rw [e]
  · simp
  · simp
  · exact exec_not_refused i s r

end Sys2Proof.Machine
end

