-- ==== Sys2Proof/Laws/Reflection.lean ====
section
/-! SUPPORT. The footprint of one access, and what LDUR and STUR can do (45_reflection.md R116,
42_load_store.md R103, R104). -/

namespace Sys2Proof.Machine

theorem footprintAt_aligned (a : Word) (k : AccessKind) (h : a.toNat % 8 = 0) :
    footprintAt a k = some (slotOf a, k) := by
  simp [footprintAt, Config.wordBytes, h]

theorem footprintAt_misaligned (a : Word) (k : AccessKind) (h : a.toNat % 8 ≠ 0) :
    footprintAt a k = none := by
  simp [footprintAt, Config.wordBytes, h]

/-- Everything LDUR can do (R103). -/
theorem exec_ldur_cases (rt rn : RegIdx) (off : BitVec 9) (s : State) :
    ((s.effectiveAddress rn off).toNat % 8 = 0 ∧ exec (.ldur rt rn off) s = .next (s.commit
      { reg := some (rt, s.mem.get (slotOf (s.effectiveAddress rn off)).toNat),
        request := .read (slotOf (s.effectiveAddress rn off)), delta := 1 })) ∨
    ((s.effectiveAddress rn off).toNat % 8 ≠ 0 ∧
      exec (.ldur rt rn off) s = .fault (.alignmentError (s.effectiveAddress rn off))) := by
  by_cases ha : (s.effectiveAddress rn off).toNat % 8 = 0
  · exact .inl ⟨ha, execLdur_aligned _ _ _ _ ha⟩
  · exact .inr ⟨ha, execLdur_misaligned _ _ _ _ ha⟩

/-- Everything STUR can do (R104). -/
theorem exec_stur_cases (rt rn : RegIdx) (off : BitVec 9) (s : State) :
    ((s.effectiveAddress rn off).toNat % 8 = 0 ∧ exec (.stur rt rn off) s = .next (s.commit
      { reg := none, request := .write (slotOf (s.effectiveAddress rn off)) (s.readReg rt),
        delta := 1 })) ∨
    ((s.effectiveAddress rn off).toNat % 8 ≠ 0 ∧
      exec (.stur rt rn off) s = .fault (.alignmentError (s.effectiveAddress rn off))) := by
  by_cases ha : (s.effectiveAddress rn off).toNat % 8 = 0
  · exact .inl ⟨ha, execStur_aligned _ _ _ _ ha⟩
  · exact .inr ⟨ha, execStur_misaligned _ _ _ _ ha⟩

end Sys2Proof.Machine
end

