-- ==== Sys2Proof/Laws/Session.lean ====
section
/-! SUPPORT. What a move of the host that may fail leaves (70_reset_and_hazards.md R141, R143). -/

namespace Sys2Proof.Machine

@[simp] theorem settle_ok {ε : Type} (s t : State) (report : ε → HostReply) :
    settle s report (.ok t) = (t, .done) := rfl

@[simp] theorem settle_error {ε : Type} (s : State) (report : ε → HostReply) (e : ε) :
    settle s report (.error e) = (s, report e) := rfl

@[simp] theorem SnapshotSource.load_unreadable :
    SnapshotSource.load .unreadable = .error .unreadable := rfl

@[simp] theorem SnapshotSource.load_malformed : SnapshotSource.load .malformed = .error .malformed := rfl

@[simp] theorem SnapshotSource.load_readAs (snap : Snapshot) :
    SnapshotSource.load (.readAs snap) = snap.load := rfl

end Sys2Proof.Machine
end

