-- ==== Sys2Proof/Laws/Snapshot.lean ====
section
/-! SUPPORT. What loading a snapshot's memory mapping does (70_reset_and_hazards.md R138, R142). -/

namespace Sys2Proof.Machine

/-- A non-zero word stored below every listed slot goes to the front. -/
theorem Memory.set_below (m : Memory) (k : Nat) (v : Word) (h : Memory.above k m) (hv : v ≠ 0#64) :
    m.set k v = (k, v) :: m := by
  cases m with
  | nil => simp [Memory.set]; exact hv
  | cons c m => 
    have := h c (List.mem_cons_self ..)
    simp only [Memory.set]; rw [if_pos this, if_neg hv]

/-- The loaded memory holds every pair of a mapping that names no slot twice. -/
theorem loadMemory_get (l : List (Nat × Word)) (h : mappingOk l = true) :
    ∀ c ∈ l, (loadMemory l).get c.1 = c.2 := by
  induction l with
  | nil => simp
  | cons c l ih =>
    simp only [mappingOk, Bool.and_eq_true, decide_eq_true_eq, List.all_eq_true] at h
    have : loadMemory (c :: l) = (loadMemory l).set c.1 c.2 := rfl
    intro d hd
    rw [this, Memory.get_set _ _ _ _ (loadMemory_wf l h.2)]
    rcases List.mem_cons.1 hd with rfl | hd
    · simp
    · have := h.1.2 d hd
      simp at this
      rw [if_neg this]; exact ih h.2 d hd

/-- A slot the mapping does not list reads 0 in the loaded memory. -/
theorem loadMemory_unlisted (l : List (Nat × Word)) (h : mappingOk l = true) (k : Nat)
    (hk : ∀ c ∈ l, c.1 ≠ k) : (loadMemory l).get k = 0#64 := by
  induction l with
  | nil => rfl
  | cons c l ih =>
    simp only [mappingOk, Bool.and_eq_true] at h
    have e : loadMemory (c :: l) = (loadMemory l).set c.1 c.2 := rfl
    rw [e, Memory.get_set _ _ _ _ (loadMemory_wf l h.2), if_neg (Ne.symm (hk c (List.mem_cons_self ..)))]
    exact ih h.2 fun d hd => hk d (List.mem_cons_of_mem _ hd)

/-- What a mapping must be to be loaded. -/
theorem mappingOk_iff (l : List (Nat × Word)) :
    mappingOk l = true ↔ (l.map Prod.fst).Nodup ∧ ∀ c ∈ l, c.1 < 2 ^ 61 := by
  induction l with
  | nil => simp [mappingOk]
  | cons c l ih =>
    simp only [mappingOk, Bool.and_eq_true, ih, decide_eq_true_eq, List.all_eq_true, Bool.not_eq_true',
      beq_eq_false_iff_ne]
    simp only [List.map_cons, List.nodup_cons, List.forall_mem_cons, List.mem_map, Config.slotCount,
      not_exists, not_and]
    tauto

/-- A program loads entry by entry. -/
theorem loadProgram_getElem (l : List RawEntry) (p : List Entry) (h : loadProgram l = .ok p) :
    p.length = l.length ∧
      ∀ (k : Nat) (r : RawEntry), l[k]? = some r → ∃ e, p[k]? = some e ∧ loadEntry r = .ok e := by
  induction l generalizing p with
  | nil => cases h; simp
  | cons r l ih =>
    unfold loadProgram at h
    cases he : loadEntry r with
    | error => rw [he] at h; cases h
    | ok e =>
      rw [he] at h
      cases hl : loadProgram l with
      | error => rw [hl] at h; cases h
      | ok es =>
        rw [hl] at h
        cases h
        obtain ⟨h1, h2⟩ := ih es hl
        refine ⟨by simp [h1], fun k r' hk => ?_⟩
        cases k with
        | zero =>
          simp only [List.getElem?_cons_zero, Option.some.injEq] at hk ⊢
          exact ⟨e, rfl, hk ▸ he⟩
        | succ k =>
          simp only [List.getElem?_cons_succ] at hk ⊢
          exact h2 k r' hk

end Sys2Proof.Machine
end

