-- ==== Sys2Proof/Tests/Slice0.lean ====
section
/-! SUPPORT. Tests. Expected values come from the spec: 95_test_vectors.md where a vector id is named,
else the rule named, by hand. The witnesses at the end show, for every obligation with hypotheses, states
and operands that meet them. -/

namespace Sys2Proof.Tests

open Sys2Proof Sys2Proof.Machine

/-! Helpers -/

/-- A state at `pc` with the registers `regs`, memory and program given, the rest as after reset. -/
def at_ (pc : Word) (regs : List (RegIdx × Word)) (mem : Memory) (prog : List Entry) : State :=
  { State.reset with
    pc := pc, mem := mem, prog := prog
    regs := regs.foldl (fun r c => r.write c.1 c.2) State.reset.regs }

def nextOf : Host.Outcome State Fault Refusal → Option State
  | .next t => some t
  | .fault _ => none
  | .refused _ => none

def faultOf : Host.Outcome State Fault Refusal → Option Fault
  | .next _ => none
  | .fault e => some e
  | .refused _ => none

/-- The register `r` after an instruction. -/
def regAfter (i : Instr) (s : State) (r : RegIdx) : Option Word :=
  (nextOf (exec i s)).map (fun t => t.readReg r)

/-- The pc and the outcome after an instruction. -/
def pcAfter (i : Instr) (s : State) : Option (Word × Option TickOutcome) :=
  (nextOf (exec i s)).map (fun t => (t.pc, t.lastOutcome))

/-- The memory after an instruction. -/
def memAfter (i : Instr) (s : State) : Option Memory := (nextOf (exec i s)).map State.mem

/-! WellFormed: one ill-formed term for each check (R57, R58), refused by the check and the validator -/

theorem test_wf_register_32 : (RawInstr.add 32 0 0).wellFormed = false ∧
    (RawInstr.cbz 32 0).wellFormed = false ∧ validate (.sub 0 0 32) = .error (.registerIndex 32) := by
  decide

theorem test_wf_addi : (RawInstr.addi 0 1 4096).wellFormed = false ∧
    (RawInstr.addi 0 1 (-1)).wellFormed = false ∧ (RawInstr.addi 0 1 4095).wellFormed = true ∧
    validate (.addi 0 1 4096) = .error (.range .addi 4096) := by decide

theorem test_wf_subi : (RawInstr.subi 0 1 4096).wellFormed = false ∧
    (RawInstr.subi 0 1 (-1)).wellFormed = false ∧ (RawInstr.subi 0 1 0).wellFormed = true := by decide

theorem test_wf_ldur : (RawInstr.ldur 0 1 (-257)).wellFormed = false ∧
    (RawInstr.ldur 0 1 256).wellFormed = false ∧ (RawInstr.ldur 0 1 (-256)).wellFormed = true := by
  decide

theorem test_wf_stur : (RawInstr.stur 0 1 (-257)).wellFormed = false ∧
    (RawInstr.stur 0 1 256).wellFormed = false ∧ (RawInstr.stur 0 1 255).wellFormed = true := by decide

theorem test_wf_b : (RawInstr.b (-33554433)).wellFormed = false ∧
    (RawInstr.b 33554432).wellFormed = false ∧ (RawInstr.b (-33554432)).wellFormed = true ∧
    (RawInstr.b 33554431).wellFormed = true := by decide

theorem test_wf_cbz : (RawInstr.cbz 0 (-262145)).wellFormed = false ∧
    (RawInstr.cbz 0 262144).wellFormed = false ∧ (RawInstr.cbz 31 (-262144)).wellFormed = true := by
  decide

theorem test_wf_cbnz : (RawInstr.cbnz 0 (-262145)).wellFormed = false ∧
    (RawInstr.cbnz 0 262144).wellFormed = false ∧ (RawInstr.cbnz 31 262143).wellFormed = true := by
  decide

theorem test_wf_comment : (Instr.comment ['a', ' ']).wellFormed = false ∧
    (Instr.comment ['a', '\t']).wellFormed = false ∧ (Instr.comment [' ', 'a']).wellFormed = true := by
  decide

/-! Decode: words written bit by bit from R62 and R64, and the words of the vectors named -/

/-- W1 and W3: opcode, Rm, shamt, Rn, Rd. -/
theorem test_decode_add :
    decode 0b10001011000_00011_000000_00010_00001#32 = .ok (.add 1 2 3) ∧
    decode 0x8B030041 = .ok (.add 1 2 3) ∧ decode 0x8B1F03FF = .ok (.add 31 31 31) := by decide

/-- W2. -/
theorem test_decode_sub :
    decode 0b11001011000_00111_000000_00101_00100#32 = .ok (.sub 4 5 7) ∧
    decode 0xCB000000 = .ok (.sub 0 0 0) := by decide

/-- W5: opcode, imm12, Rn, Rd. -/
theorem test_decode_addi :
    decode 0b1001000100_111111111111_00001_00000#32 = .ok (.addi 0 1 4095) ∧
    decode 0x913FFC20 = .ok (.addi 0 1 4095) := by decide

/-- W6, W7. -/
theorem test_decode_subi :
    decode 0b1101000100_000000000001_00010_00011#32 = .ok (.subi 3 2 1) ∧
    decode 0xD13FFFDE = .ok (.subi 30 30 4095) ∧ decode 0xD1000000 = .ok (.subi 0 0 0) := by decide

/-- W9: opcode, off9, op, Rn, Rt. -/
theorem test_decode_ldur :
    decode 0b11111000010_100000000_00_00001_00000#32 = .ok (.ldur 0 1 (-256)) ∧
    decode 0xF8500020 = .ok (.ldur 0 1 (-256)) := by decide

/-- W10, W11. -/
theorem test_decode_stur :
    decode 0b11111000000_011111111_00_00011_00010#32 = .ok (.stur 2 3 255) ∧
    decode 0xF80FF062 = .ok (.stur 2 3 255) ∧ decode 0xF8100000 = .ok (.stur 0 0 (-256)) := by decide

/-- W15 to W17: opcode, imm26. -/
theorem test_decode_b :
    decode 0b000101_11111111111111111111111111#32 = .ok (.b (-1)) ∧
    decode 0x15FFFFFF = .ok (.b 33554431) ∧ decode 0x16000000 = .ok (.b (-33554432)) := by decide

/-- W18 to W20: opcode, imm19, Rt. -/
theorem test_decode_cbz :
    decode 0b10110100_1111111111111111111_00000#32 = .ok (.cbz 0 (-1)) ∧
    decode 0xB47FFFE0 = .ok (.cbz 0 262143) ∧ decode 0xB4800000 = .ok (.cbz 0 (-262144)) := by decide

/-- W21, W22. -/
theorem test_decode_cbnz :
    decode 0b10110101_0111111111111111111_11110#32 = .ok (.cbnz 30 262143) ∧
    decode 0xB5000001 = .ok (.cbnz 1 0) := by decide

/-- W23; a comment has no word, and an image holds NONE's for it (R65). -/
theorem test_decode_none : decode 0 = .ok .none ∧ encode (.comment ['x']) = 0 := by decide

/-- W4, W8, W12, W13, W24 to W27, each rejected by name. -/
theorem test_decode_illegal :
    decode 0x8B000400 = .error (.reservedShamt 0x8B000400) ∧
    decode 0x91400000 = .error (.noRow 0x91400000) ∧
    decode 0xF8400400 = .error (.reservedOp 0xF8400400) ∧
    decode 0xF8400800 = .error (.reservedOp 0xF8400800) ∧
    decode 1 = .error (.noRow 1) ∧ decode 0xFFFFFFFF = .error (.noRow 0xFFFFFFFF) ∧
    decode 0x9A000000 = .error (.noRow 0x9A000000) ∧
    decode 0xB6000000 = .error (.noRow 0xB6000000) := by decide

/-- The host's questions on one word: what the decoder reads, and that it runs first after reset. -/
theorem test_table_word : decodeTableWord 32 0x910017E2 = some (.addi 2 31 5) ∧
    (nextOf (step (State.reset.withFetchWord 32 0x910017E2))).map
      (fun t => (t.readReg 2, t.pc)) = some (5#64, 1#64) := by decide

/-- An image of COMMENT's word runs as NONE (R65). -/
theorem test_table_word_zero : decodeTableWord 32 0 = some .none ∧
    (nextOf (step (State.reset.withFetchWord 32 0))).map State.pc = some 0#64 := by decide

/-! Instructions -/

/-- A1: the sum wraps, and the pc moves on. -/
theorem test_add_wraps :
    regAfter (.add 1 2 3) (at_ 0 [(2, BitVec.allOnes 64), (3, 1)] [] []) 1 = some 0 ∧
    pcAfter (.add 1 2 3) (at_ 7 [] [] []) = some (8, some .keepRunning) := by decide

/-- A6, A7: a write to the zero register is discarded; it reads 0. -/
theorem test_add_zero_register :
    (nextOf (exec (.add 31 2 3) (at_ 0 [(2, 5), (3, 6)] [] []))).map State.regs =
      some (at_ 0 [(2, 5), (3, 6)] [] []).regs ∧
    regAfter (.add 1 31 31) (at_ 0 [(1, 9)] [] []) 1 = some 0 := by decide

/-- A3: the order of the operands, and the borrow. -/
theorem test_sub_wraps :
    regAfter (.sub 1 2 3) (at_ 0 [(3, 1)] [] []) 1 = some 0xFFFFFFFFFFFFFFFF := by decide

/-- A5. -/
theorem test_sub_sign :
    regAfter (.sub 1 2 3) (at_ 0 [(3, 0x8000000000000000)] [] []) 1 = some 0x8000000000000000 := by
  decide

/-- A8: the immediate is unsigned. -/
theorem test_addi_unsigned :
    regAfter (.addi 1 2 4095) (at_ 0 [(2, 0xFFFFFFFFFFFFF001)] [] []) 1 = some 0 := by decide

/-- A12: no no-op entry, the pc advances. -/
theorem test_addi_zero :
    regAfter (.addi 1 1 0) (at_ 0 [(1, 5)] [] []) 1 = some 5 ∧
    pcAfter (.addi 1 1 0) (at_ 0 [(1, 5)] [] []) = some (1, some .keepRunning) := by decide

/-- A9. -/
theorem test_subi_unsigned :
    regAfter (.subi 1 31 4095) (at_ 0 [] [] []) 1 = some 0xFFFFFFFFFFFFF001 := by decide

/-- A10. -/
theorem test_subi_zero : regAfter (.subi 1 1 0) (at_ 0 [(1, 77)] [] []) 1 = some 77 := by decide

/-- D3, D8: only the sum must be aligned, and it wraps. -/
theorem test_ldur_address :
    regAfter (.ldur 1 2 255) (at_ 0 [(2, 1)] [(32, 0xAB)] []) 1 = some 0xAB ∧
    regAfter (.ldur 1 2 8) (at_ 0 [(2, 0xFFFFFFFFFFFFFFF8)] [(0, 0x99)] []) 1 = some 0x99 := by decide

/-- D5, D6: the address the error carries; the zero register does not skip the check. -/
theorem test_ldur_misaligned :
    faultOf (exec (.ldur 1 2 (-8)) (at_ 0 [(2, 4)] [] [])) =
      some (.alignmentError 0xFFFFFFFFFFFFFFFC) ∧
    faultOf (exec (.ldur 31 2 4) (at_ 0 [] [] [])) = some (.alignmentError 4) := by decide

/-- D7: the top slot. -/
theorem test_stur_top :
    memAfter (.stur 1 31 (-8)) (at_ 0 [(1, 0x55)] [] []) = some [(0x1FFFFFFFFFFFFFFF, 0x55)] := by
  decide

/-- D9: storing zero removes the slot; D11: the base is the source. -/
theorem test_stur_zero :
    memAfter (.stur 31 2 0) (at_ 0 [(2, 40)] [(5, 5)] []) = some [] ∧
    memAfter (.stur 1 1 0) (at_ 0 [(1, 16)] [] []) = some [(2, 16)] := by decide

/-- B7: below zero the pc wraps. -/
theorem test_b_wraps :
    pcAfter (.b (-1)) (at_ 0 [] [] []) = some (0xFFFFFFFFFFFFFFFF, some .keepRunning) := by decide

/-- B10, B11. -/
theorem test_b_range :
    (pcAfter (.b (-33554432)) (at_ 2 [] [] [])).map Prod.fst = some 0xFFFFFFFFFE000002 ∧
    (pcAfter (.b 33554431) (at_ 3 [] [] [])).map Prod.fst = some 0x2000002 := by decide

/-- B2, B3. -/
theorem test_cbz :
    (pcAfter (.cbz 1 10) (at_ 3 [(1, 1)] [] [])).map Prod.fst = some 4 ∧
    (pcAfter (.cbz 1 10) (at_ 3 [] [] [])).map Prod.fst = some 13 := by decide

/-- B8, B12. -/
theorem test_cbz_zero_register :
    (pcAfter (.cbz 31 7) (at_ 1 [] [] [])).map Prod.fst = some 8 ∧
    (pcAfter (.cbz 1 (-262144)) (at_ 0 [] [] [])).map Prod.fst = some 0xFFFFFFFFFFFC0000 := by decide

/-- B4, B5. -/
theorem test_cbnz :
    (pcAfter (.cbnz 1 (-1)) (at_ 3 [] [] [])).map Prod.fst = some 4 ∧
    (pcAfter (.cbnz 1 (-1)) (at_ 3 [(1, 1)] [] [])).map Prod.fst = some 2 := by decide

/-- B9. -/
theorem test_cbnz_zero_register :
    (pcAfter (.cbnz 31 7) (at_ 1 [] [] [])).map Prod.fst = some 2 := by decide

/-- H8. -/
theorem test_none_stops :
    (nextOf (step (at_ 1 [] [] [.decoded .none, .decoded .none]))).map
      (fun t => (t.pc, t.lastOutcome)) = some (1, some .shouldStop) := by decide

/-- H9, H10: a comment is not skipped. -/
theorem test_comment_stops :
    (nextOf (step (at_ 1 [] [] [.decoded .none, .decoded (.comment [' ', 'd']),
      .decoded (.addi 1 31 2)]))).map (fun t => (t.pc, t.readReg 1, t.lastOutcome)) =
      some (1, 0, some .shouldStop) := by decide

/-! Ports, reflection, context ranges, assembler -/

/-- E1, E3: codes and payloads. -/
theorem test_error_codes :
    (at_ 0 [] [] [.decoded (.ldur 1 2 1)]).transaction.map (fun a => (a.outcome.code, a.outcome.info)) =
      some (2, 1) ∧
    (at_ 0 [] [] [.word 0xFFFFFFFF]).transaction.map (fun a => (a.outcome.code, a.outcome.info)) =
      some (4, 0xFFFFFFFF) := by decide

/-- R95: a store drives `dm_op`, `dm_slot` and `dm_wdata`. -/
theorem test_store_request :
    (at_ 0 [(1, 7)] [] [.decoded (.stur 1 31 8)]).transaction.map
      (fun a => (a.request.op, a.request.slot?, a.request.wdata?)) = some (2, some 1, some 7) := by
  decide

/-- R-1, R-3, R-4. -/
theorem test_operands : operands (.add 1 2 3) = [(1, .dest), (2, .source), (3, .source)] ∧
    operands (.addi 31 1 1) = [(31, .dest), (1, .source)] ∧ operands (.b 4) = [] := by decide

/-- R-5 to R-8. -/
theorem test_footprint :
    footprint (.ldur 3 2 8) (at_ 0 [(2, 16)] [] []).regs = some (3, .read) ∧
    footprint (.ldur 5 2 (-12)) (at_ 0 [(2, 16)] [] []).regs = none ∧
    footprint (.stur 1 31 (-8)) State.reset.regs = some (0x1FFFFFFFFFFFFFFF, .write) ∧
    footprint (.add 1 2 3) State.reset.regs = none := by decide

/-- R-9 to R-11. -/
theorem test_target : target (.cbz 1 4) 2 = some 6 ∧ target (.b (-1)) 0 = some (BitVec.allOnes 64) ∧
    target (.addi 1 2 3) 0 = none := by decide

/-- C-1 to C-5. -/
theorem test_context_ranges : contextRanges [2, 10] [5] 1 = [(1, 6), (9, 11)] ∧
    contextRanges [0, 1, 3] [] 0 = [(0, 1), (3, 3)] ∧ contextRanges [0] [] 2 = [(0, 2)] ∧
    contextRanges [2 ^ 61 - 1] [] 1 = [(2 ^ 61 - 2, 2 ^ 61 - 1)] ∧ contextRanges [] [] 3 = [] := by
  decide

/-- P2, P3, P6. -/
theorem test_parse_lines : parse "// Hello World".toList = .ok (.comment " Hello World".toList) ∧
    parse "   //x".toList = .ok (.comment ['x']) ∧
    parse "ADD x1, XZR, x3".toList = .ok (.add 1 31 3) := by decide

/-- P7, P8, P10, P11, P16. -/
theorem test_parse_syntax_errors : parse "add x1, x31, x3".toList = .error .syntaxError ∧
    parse "add x1, x05, x3".toList = .error .syntaxError ∧
    parse "add x1 x2 x3".toList = .error .syntaxError ∧
    parse "add x1, x2, x3 // c".toList = .error .syntaxError ∧
    parse "addi x1, x2, 5".toList = .error .syntaxError := by decide

/-- P12, P13, P15, P17, P18. -/
theorem test_parse_other_errors : parse "add x1, x2".toList = .error .insufficientArguments ∧
    parse "b".toList = .error .insufficientArguments ∧
    parse "ldur x1, [x2]".toList = .error .insufficientArguments ∧
    parse "addi x1, x2, #0x10".toList = .error .numberFormatError ∧
    parse "addi x1, x2, #+5".toList = .error .numberFormatError := by decide

/-- P19, P26, P27, S4. -/
theorem test_parse_range_errors :
    parse "b #99999999999999999999".toList = .error (.rangeError .b 99999999999999999999) ∧
    parse "cbz x1, #262144".toList = .error (.rangeError .cbz 262144) ∧
    parse "stur x1, [x2, #256]".toList = .error (.rangeError .stur 256) ∧
    parse "addi X0, X1, #-1".toList = .error (.rangeError .addi (-1)) := by decide

/-- P21 to P25. -/
theorem test_render : render (.stur 0 30 255) = "stur X0, [X30, #255]".toList ∧
    render (.b (-33554432)) = "b #-33554432".toList ∧
    render (.cbnz 31 262143) = "cbnz XZR, #262143".toList ∧
    render (.subi 5 6 0) = "subi X5, X6, #0".toList ∧
    render (.comment " Hi".toList) = "// Hi".toList := by decide

/-! Witnesses -/

/-- A state with every kind of entry: X2 = 16, X3 = 0x55, `M[3] = 0xAB`. -/
def demo (pc : Word) : State :=
  at_ pc [(2, 16), (3, 0x55)] [(3, 0xAB)]
    [ .decoded (.add 1 2 3), .decoded (.ldur 4 2 8), .decoded (.stur 3 2 (-8)), .decoded (.ldur 5 2 1),
      .decoded (.b (-3)), .decoded .none, .word 0x8B030041, .word 0xFFFFFFFF ]

/-- A destination that is the zero register, one that is not, and another register. -/
theorem test_witness_AddWritesWrappedSum : (30#5 : RegIdx) ≠ 31#5 ∧ (31#5 : RegIdx) = 31#5 ∧
    (0#5 : RegIdx) ≠ 30#5 ∧ (nextOf (exec (.add 30 2 3) (demo 0))).map (fun t => t.readReg 30) =
      some 0x65 := by decide

theorem test_witness_SubWritesWrappedDifference : (30#5 : RegIdx) ≠ 31#5 ∧
    (0#5 : RegIdx) ≠ 30#5 ∧ (31#5 : RegIdx) = 31#5 ∧
    (nextOf (exec (.sub 30 3 2) (demo 0))).map (fun t => t.readReg 30) = some 0x45 := by decide

theorem test_witness_AddiWritesSumWithUnsignedImmediate : (30#5 : RegIdx) ≠ 31#5 ∧
    (0#5 : RegIdx) ≠ 30#5 ∧ (31#5 : RegIdx) = 31#5 ∧
    (nextOf (exec (.addi 30 2 4095) (demo 0))).map (fun t => t.readReg 30) = some 4111 := by decide

theorem test_witness_SubiWritesDifferenceWithUnsignedImmediate : (30#5 : RegIdx) ≠ 31#5 ∧
    (0#5 : RegIdx) ≠ 30#5 ∧ (31#5 : RegIdx) = 31#5 ∧
    (nextOf (exec (.subi 30 2 16) (demo 0))).map (fun t => t.readReg 30) = some 0 := by decide

theorem test_witness_EffectiveAddress :
    (∃ t, exec (.stur 3 2 (-8)) (demo 2) = .next t) ∧
    (∃ t, exec (.ldur 4 2 8) (demo 1) = .next t) ∧ (2#5 : RegIdx) ≠ 4#5 :=
  ⟨⟨_, rfl⟩, ⟨_, rfl⟩, by decide⟩

/-- Aligned and misaligned effective addresses, the zero register as destination too. -/
theorem test_witness_LdurLoadsAlignedWordElseRaises :
    ((demo 1).effectiveAddress 2 8).toNat % 8 = 0 ∧ ((demo 1).effectiveAddress 31 (-8)).toNat % 8 = 0 ∧
    ((demo 3).effectiveAddress 2 1).toNat % 8 ≠ 0 ∧ (demo 3).fetch = .instr (.ldur 5 2 1) ∧
    (4#5 : RegIdx) ≠ 31#5 := by decide

theorem test_witness_SturStoresAlignedWordElseRaises : (demo 2).wf = true ∧
    ((demo 2).effectiveAddress 2 (-8)).toNat % 8 = 0 ∧
    ((demo 2).effectiveAddress 2 (-7)).toNat % 8 ≠ 0 ∧
    (at_ 0 [] [] [.decoded (.stur 3 2 (-7))]).fetch = .instr (.stur 3 2 (-7)) ∧
    (0#64 : Word) ≠ (demo 2).effectiveAddress 2 (-8) := by decide

/-- A zero register value, a non-zero one whose low half is zero, and the zero register. -/
theorem test_witness_CbzAndCbnz : ((demo 0).readReg 1).toNat = 0 ∧
    ((at_ 0 [(1, 0x100000000)] [] []).readReg 1).toNat ≠ 0 ∧ (31#5 : RegIdx) = 31#5 := by decide

/-- The pc at PROG_LEN, and at the last entry. -/
theorem test_witness_FetchBound : (demo 8).prog.length ≤ (demo 8).pc.toNat ∧
    (demo 4).prog[(demo 4).pc.toNat]? = some (.decoded (.b (-3))) ∧
    (demo 7).pc.toNat < (demo 7).prog.length := by decide

theorem test_witness_StepRunsTheDecodedInstruction :
    (demo 0).prog[(demo 0).pc.toNat]? = some (.decoded (.add 1 2 3)) ∧
    (demo 6).prog[(demo 6).pc.toNat]? = some (.word 0x8B030041) ∧
    decode 0x8B030041 = .ok (.add 1 2 3) := by decide

theorem test_witness_IllegalWordRaisesDecodeError :
    (demo 7).prog[(demo 7).pc.toNat]? = some (.word 0xFFFFFFFF) ∧
    (∀ row ∈ opRows, (0xFFFFFFFF : InstrWord) &&& row.mask ≠ row.pattern) := by decide

/-- Both kinds of error and both kinds of next state: the hypotheses of TickOutcomesAreExactlyThree,
StoppedAndFailedStatesRepeat and ProgramStoreIsNeverWritten. -/
theorem test_witness_TickOutcomes : (∃ t, step (demo 0) = .next t ∧ t.lastOutcome = some .keepRunning) ∧
    (∃ t, step (demo 5) = .next t ∧ t.lastOutcome = some .shouldStop) ∧
    step (demo 3) = .fault (.alignmentError 17) ∧ step (demo 7) = .fault (.decodeError 0xFFFFFFFF) :=
  ⟨⟨_, rfl, by decide⟩, ⟨_, rfl, by decide⟩, rfl, rfl⟩

/-- Also for OnlyLoadsAndStoresRaiseAlignmentError's host ports. -/
theorem test_witness_OnlyLoadsAndStoresRaise :
    (demo 0).hostGetMem 5 = .error (.alignmentError 5) ∧
    (demo 0).hostSetMem 5 1 = .error (.alignmentError 5) ∧
    exec (.ldur 5 2 1) (demo 3) = .fault (.alignmentError 17) ∧
    exec (.stur 5 2 (-1)) (demo 3) = .fault (.alignmentError 15) := ⟨rfl, rfl, rfl, rfl⟩

/-- A branch that is taken, and a next slot, each with KeepRunning. -/
theorem test_witness_PcGoes :
    (∃ t, step (demo 4) = .next t ∧ t.lastOutcome = some .keepRunning ∧ t.pc = 1) ∧
    (∃ t, step (demo 0) = .next t ∧ t.lastOutcome = some .keepRunning ∧ t.pc = 1) :=
  ⟨⟨_, rfl, by decide, by decide⟩, ⟨_, rfl, by decide, by decide⟩⟩

/-- No footprint, a Read, a Write and a tick that stops. -/
theorem test_witness_TickDrivesThePorts : (demo 2).wf = true ∧
    (demo 0).fetch = .instr (.add 1 2 3) ∧ footprint (.add 1 2 3) (demo 0).regs = none ∧
    (demo 1).fetch = .instr (.ldur 4 2 8) ∧ footprint (.ldur 4 2 8) (demo 1).regs = some (3, .read) ∧
    (demo 2).fetch = .instr (.stur 3 2 (-8)) ∧
    footprint (.stur 3 2 (-8)) (demo 2).regs = some (1, .write) ∧
    (demo 2).transaction = some ⟨.keepRunning, 2, .write 1 0x55⟩ ∧
    (demo 5).transaction = some ⟨.shouldStop, 5, .idle⟩ := by decide

theorem test_witness_OutcomeCodes :
    (demo 3).transaction = some ⟨.execError (.alignmentError 17), 3, .idle⟩ ∧
    step (demo 3) = .fault (.alignmentError 17) ∧
    (demo 7).transaction = some ⟨.execError (.decodeError 0xFFFFFFFF), 7, .idle⟩ ∧
    step (demo 7) = .fault (.decodeError 0xFFFFFFFF) := ⟨by decide, rfl, by decide, rfl⟩

/-- A word of every row with its operand fields full, and a word of none. -/
theorem test_witness_DecodeFollowsTheOpcodeMap :
    0x8B1F03FF#32 &&& 0xFFE0FC00#32 = 0x8B000000#32 ∧ 0xCB1F03FF#32 &&& 0xFFE0FC00#32 = 0xCB000000#32 ∧
    0x913FFFFF#32 &&& 0xFFC00000#32 = 0x91000000#32 ∧ 0xD13FFFFF#32 &&& 0xFFC00000#32 = 0xD1000000#32 ∧
    0xF85FF3FF#32 &&& 0xFFE00C00#32 = 0xF8400000#32 ∧ 0xF81FF3FF#32 &&& 0xFFE00C00#32 = 0xF8000000#32 ∧
    0x17FFFFFF#32 &&& 0xFC000000#32 = 0x14000000#32 ∧ 0xB4FFFFFF#32 &&& 0xFF000000#32 = 0xB4000000#32 ∧
    0xB5FFFFFF#32 &&& 0xFF000000#32 = 0xB5000000#32 ∧
    (∀ row ∈ opRows, (1 : InstrWord) &&& row.mask ≠ row.pattern) := by decide

theorem test_witness_OpcodeRows : (⟨.b, 0x14000000, 0xFC000000⟩ : OpRow) ∈ opRows ∧
    (⟨.b, 0x14000000, 0xFC000000⟩ : OpRow).accepts 0x17FFFFFF = true := by decide

/-- An instruction that is no comment, and a comment. -/
theorem test_witness_DecodeOfEncode : (∀ text, Instr.b (-1) ≠ .comment text) ∧
    (∃ text, Instr.comment ['x'] = .comment text) := ⟨fun _ h => (nomatch h), ⟨_, rfl⟩⟩

theorem test_witness_EncodeOfDecode : decode 0xF85FF3FF = .ok (.ldur 31 31 (-1)) := by decide

/-- Within the program and beyond its end. -/
theorem test_witness_PlacedWord : decodeTableWord 32 0x14000000 = some (.b 0) ∧
    (3 : Nat) ≠ (demo 4).pc.toNat ∧ 3 < (demo 4).prog.length ∧
    ((demo 10).withFetchWord 32 0x14000000).prog.length = 11 := by decide

theorem test_witness_ZeroRegister : (30#5 : RegIdx) ≠ 31#5 ∧ (0#5 : RegIdx) ≠ 30#5 := by decide

/-- Indices 0, 30, 31 and 32 (H1 to H3). -/
theorem test_witness_HostRegisterPort : (demo 0).hostGetReg 31 = .ok 0 ∧
    (demo 0).hostGetReg 32 = .error (.registerError 32) ∧
    (demo 0).hostSetReg 32 1 = .error (.registerError 32) ∧ (0 : Nat) ≤ 30 ∧ (30 : Nat) ≤ 30 ∧
    (0 : Nat) ≠ 30 := by decide

/-- Canonical memory, the top aligned address and one below it. -/
theorem test_witness_MemoryReadAfterWrite : Memory.wf [(3, 0xAB)] = true ∧
    (0xFFFFFFFFFFFFFFF8#64).toNat % 8 = 0 ∧ (0xFFFFFFFFFFFFFFF7#64).toNat % 8 ≠ 0 ∧
    (0#64 : Word) ≠ 0xFFFFFFFFFFFFFFF8#64 := by decide

/-- A listed slot written with 0, with another word, and a second slot. -/
theorem test_witness_OccupiedSet : Memory.wf [(3, 0xAB), (4, 1)] = true ∧
    (Memory.set [(3, 0xAB), (4, 1)] 3 0).used = [4] ∧
    (Memory.set [(3, 0xAB), (4, 1)] 5 2).used = [3, 4, 5] := by decide

theorem test_witness_LoadSeesTheStore : ∃ t u, (demo 2).wf = true ∧
    exec (.stur 3 2 (-8)) (demo 2) = .next t ∧ exec (.ldur 4 31 8) t = .next u ∧
    t.effectiveAddress 31 8 = (demo 2).effectiveAddress 2 (-8) ∧ (4#5 : RegIdx) ≠ 31#5 :=
  ⟨_, _, by decide, rfl, rfl, by decide, by decide⟩

theorem test_witness_Reset : (0xFFFFFFFFFFFFFFF8#64).toNat % 8 = 0 ∧ State.reset.wf = true := by decide

/-- For every statement about states with canonical memory and a tick from them. -/
theorem test_witness_StepKeepsCanonicalMemory : ∃ t, (demo 2).wf = true ∧ step (demo 2) = .next t ∧
    t.mem = [(1, 0x55), (3, 0xAB)] := ⟨_, by decide, rfl, by decide⟩

theorem test_witness_SessionKeepsCanonicalMemory : (demo 0).wf = true ∧
    ((demo 0).session [.setMem 8 1, .setMem 24 0]).1.mem = [(1, 1)] := by decide

/-- A program of an addition and a backward branch. -/
theorem test_witness_ProgramsWithoutLoadsAndStores :
    ∀ e ∈ (at_ 0 [] [] [.decoded (.add 1 1 1), .word 0x17FFFFFF]).prog,
      ∃ i, e.fetched = .instr i ∧ (∀ rt rn off, i ≠ .ldur rt rn off) ∧
        (∀ rt rn off, i ≠ .stur rt rn off) := by
  intro e he
  rcases List.mem_cons.1 he with rfl | he
  · exact ⟨.add 1 1 1, rfl, fun _ _ _ h => (nomatch h), fun _ _ _ h => (nomatch h)⟩
  · rcases List.mem_cons.1 he with rfl | he
    · exact ⟨.b (-1), by decide, fun _ _ _ h => (nomatch h), fun _ _ _ h => (nomatch h)⟩
    · exact absurd he List.not_mem_nil

theorem test_witness_OnlyDestOperandsChange : ∃ t, exec (.ldur 4 2 8) (demo 1) = .next t ∧
    t.readReg 4 ≠ (demo 1).readReg 4 := ⟨_, rfl, by decide⟩

/-- Two states that differ in a register the instruction does not read. -/
theorem test_witness_SourceOperands : (demo 0).pc = ((demo 0).writeReg 9 7).pc ∧
    (demo 0).mem = ((demo 0).writeReg 9 7).mem ∧ (demo 0).prog = ((demo 0).writeReg 9 7).prog ∧
    (∀ r, (r, Role.source) ∈ operands (.add 1 2 3) →
      (demo 0).readReg r = ((demo 0).writeReg 9 7).readReg r) := by decide

/-- A Read, a Write, a misaligned access, another instruction, and a slot that a store changes. -/
theorem test_witness_FootprintIsExact :
    footprint (.ldur 4 2 8) (demo 1).regs = some (3, .read) ∧
    footprint (.stur 3 2 (-8)) (demo 2).regs = some (1, .write) ∧
    footprint (.ldur 4 2 1) (demo 1).regs = none ∧ (demo 2).wf = true ∧
    (nextOf (exec (.stur 3 2 (-8)) (demo 2))).map (fun t => t.mem.get 1 == (demo 2).mem.get 1) =
      some false := by decide

theorem test_witness_TargetIsWhereTheBranchGoes : (∃ t, exec (.b (-3)) (demo 4) = .next t) ∧
    (demo 0).readReg 1 = 0 ∧ (∃ t, exec (.cbz 1 5) (demo 0) = .next t) ∧
    (demo 0).readReg 2 ≠ 0 ∧ (∃ t, exec (.cbnz 2 5) (demo 0) = .next t) :=
  ⟨⟨_, rfl⟩, by decide, ⟨_, rfl⟩, by decide, ⟨_, rfl⟩⟩

/-- Every kind of evaluated effect. -/
theorem test_witness_EvaluatedEffect : (demo 0).wf = true ∧
    evaluatedEffect (.ldur 4 2 8) (demo 0).regs (demo 0).mem = .setsReg 4 0xAB ∧
    evaluatedEffect (.stur 3 2 (-8)) (demo 0).regs (demo 0).mem = .storesWord 1 0x55 ∧
    evaluatedEffect (.stur 3 2 1) (demo 0).regs (demo 0).mem = .misaligned 17 ∧
    evaluatedEffect (.cbz 1 (-3)) (demo 0).regs (demo 0).mem = .branches true (-3) ∧
    evaluatedEffect (.cbnz 1 (-3)) (demo 0).regs (demo 0).mem = .branches false 1 ∧
    evaluatedEffect .none (demo 0).regs (demo 0).mem = .stops ∧ (4#5 : RegIdx) ≠ 31#5 ∧
    evaluatedEffect (.ldur 31 2 8) (demo 0).regs (demo 0).mem = .setsReg 31 0xAB := by decide

theorem test_witness_ParseOfRender : (Instr.ldur 31 31 (-256)).wellFormed = true ∧
    (Instr.comment " Hi".toList).wellFormed = true ∧
    parse (render (.ldur 31 31 (-256))) = .ok (.ldur 31 31 (-256)) := by decide

/-- Both ends of a range, and just outside them. -/
theorem test_witness_ValidationChecks : (RawInstr.b (-33554432)).wellFormed = true ∧
    validate (.b 33554431) = .ok (.b 33554431) ∧
    (RawInstr.cbz 31 262144).regs.all (fun x => decide (x ≤ 31)) = true ∧
    (RawInstr.cbz 31 262144).immediate = some (.cbz, 262144) ∧
    Mnemonic.cbz.range.2 ≤ 262144 ∧ (-262145 : Int) < Mnemonic.cbz.range.1 ∧
    parse "b #-33554433".toList = .error (.rangeError .b (-33554433)) := by decide

/-- Just outside and at the end of a range, on a line of each opcode but `b` (S3, S6, S7). -/
theorem test_witness_RangesOnLines :
    parse "addi X0, X1, #4096".toList = .error (.rangeError .addi 4096) ∧
    parse "subi X0, X1, #4095".toList = .ok (.subi 0 1 4095) ∧
    parse "ldur X0, [X1, #-257]".toList = .error (.rangeError .ldur (-257)) ∧
    parse "stur X0, [X1, #255]".toList = .ok (.stur 0 1 255) ∧
    parse "cbz X0, #-262145".toList = .error (.rangeError .cbz (-262145)) ∧
    parse "cbnz X0, #262143".toList = .ok (.cbnz 0 262143) := by decide

/-- Blanks and tabs on both sides, and two lines of which neither opens with the marker. -/
theorem test_witness_ParseIgnoresCase : (∀ c ∈ " \t".toList, c = ' ' ∨ c = '\t') ∧
    "B #1".toList.map Char.toLower = "b #1".toList.map Char.toLower ∧
    (∀ before rest : Text, "B #1".toList = before ++ ['/', '/'] ++ rest →
      ∃ c ∈ before, c ≠ ' ' ∧ c ≠ '\t') ∧ parse "b #1".toList = .ok (.b 1) := by
  refine ⟨by simp, by decide, fun before rest h => ?_, by decide⟩
  have hm : '/' ∈ "B #1".toList := by rw [h]; simp
  exact absurd hm (by decide)

theorem test_witness_BlankAndCommentLines : (" \t ".toList).all Config.isBlank = true ∧
    lineText " Hello".toList = true ∧ lineText [] = true := by decide

/-- A port, an edit, a load and a tick that fail. -/
theorem test_witness_FailedMoves :
    ((demo 0).hostMove (.setMem 5 1)).2 = .portError (.alignmentError 5) ∧
    ((demo 0).hostMove (.replaceLine 0 "addi".toList)).2 = .editError (.line .insufficientArguments) ∧
    ((demo 0).hostMove (.loadSnapshot (.readAs ⟨[], 0, [], []⟩))).2 = .loadError (.registerCount 0) ∧
    SnapshotSource.unreadable.load = .error .unreadable ∧
    ((demo 3).hostMove .tick).2 =
      .ticked (some ⟨.execError (.alignmentError 17), 3, .idle⟩) := by decide

/-- A snapshot that loads, with a record, a word and a slot not listed, one with 30 registers, T4, and
mappings that name a slot twice and one beyond the last. -/
theorem test_witness_Snapshots : (demo 0).wf = true ∧
    (∃ t, (Snapshot.mk (List.replicate 31 1) 5 [(3, 7)]
      [.decoded (.addi 1 2 5), .word 0]).load = .ok t ∧ t.mem.get 4 = 0 ∧
        t.prog = [.decoded (.addi 1 2 5), .word 0]) ∧
    (List.replicate 30 (1 : Word)).length ≠ 31 ∧ (RawInstr.addi 1 2 5000).wellFormed = false ∧
    ¬ ([(3, 7), (3, 8)].map (Prod.fst : Nat × Word → Nat)).Nodup ∧ (2 ^ 61 : Nat) ≤ 2 ^ 61 :=
  ⟨by decide, ⟨_, rfl, by decide, by decide⟩, by decide, by decide, by decide, by decide⟩

/-- A line that parses, the first and last positions of each edit, and positions beyond them. -/
theorem test_witness_ProgramEdits : parse "b #1".toList = .ok (.b 1) ∧
    ((at_ 0 [] [] [.decoded .none]).hostMove (.insertLine 1 "b #1".toList)).1.prog =
      [.decoded .none, .decoded (.b 1)] ∧
    ((at_ 0 [] [] [.decoded .none]).hostMove (.replaceLine 0 "b #1".toList)).1.prog =
      [.decoded (.b 1)] ∧
    ((at_ 0 [] [] [.decoded .none]).hostMove (.removeLine 0)).1.prog = [] ∧
    ((at_ 0 [] [] [.decoded .none]).hostMove (.insertLine 2 [])).2 = .editError (.noSuchEntry 2) ∧
    ((at_ 0 [] [] [.decoded .none]).hostMove (.removeLine 1)).2 = .editError (.noSuchEntry 1) := by
  decide

/-- Operands whose signed and unsigned readings differ. -/
theorem test_witness_SignedAndUnsigned : (1#5 : RegIdx) ≠ 31#5 ∧
    ((at_ 0 [(2, BitVec.allOnes 64)] [] []).readReg 2).toInt = -1 ∧
    regAfter (.addi 1 2 3) (at_ 0 [(2, BitVec.allOnes 64)] [] []) 1 = some 2 := by decide

/-- The three exits of a batch run. -/
theorem test_witness_Batch : ((demo 0).batch 1).exit = .limit ∧
    ((demo 5).batch 1).exit = .stopped ∧
    ((demo 3).batch 1).exit = .failed (.alignmentError 17) (some (.decoded (.ldur 5 2 1))) := by decide

end Sys2Proof.Tests
end

section
/-! SUPPORT. What an instruction stages before its commit, as a function of the state (R88, R90), and the
facts about it that the state family needs: which registers it depends on, which register it writes, and
where the pc goes. -/

namespace Sys2Proof.Machine

/-- What an instruction stages in a state, or the error it raises; `none` for the halt markers, which
stage nothing. `exec_eq_finish` ties it to `exec`. -/
def staged (i : Instr) (s : State) : Option (Except Fault Effects) :=
  match i with
  | .add rd rn rm => some (.ok (.ofReg rd (u64 (s.regVal rn + s.regVal rm))))
  | .sub rd rn rm => some (.ok (.ofReg rd (u64 (s.regVal rn - s.regVal rm))))
  | .addi rd rn imm => some (.ok (.ofReg rd (u64 (s.regVal rn + zext imm))))
  | .subi rd rn imm => some (.ok (.ofReg rd (u64 (s.regVal rn - zext imm))))
  | .ldur rt rn off => some ((accessSlot (s.effectiveAddress rn off)).map fun slot =>
      { reg := some (rt, s.mem.get slot.toNat), request := .read slot, delta := 1 })
  | .stur rt rn off => some ((accessSlot (s.effectiveAddress rn off)).map fun slot =>
      { reg := none, request := .write slot (s.readReg rt), delta := 1 })
  | .b imm => some (.ok (.ofDelta (sext imm)))
  | .cbz rt imm => some (.ok (.ofDelta (branchDelta (s.zeroCondition rt) (sext imm))))
  | .cbnz rt imm => some (.ok (.ofDelta (branchDelta (s.nonZeroCondition rt) (sext imm))))
  | .none => none
  | .comment _ => none

/-- The end of a tick, from what its instruction staged: complete, or stop where it staged nothing. -/
def State.finish (s : State) : Option (Except Fault Effects) → Host.Outcome State Fault Refusal
  | some x => s.complete x
  | none => .next s.stop

@[simp] theorem State.finish_some_ok (s : State) (e : Effects) :
    s.finish (some (.ok e)) = .next (s.commit e) := rfl
@[simp] theorem State.finish_some_error (s : State) (f : Fault) :
    s.finish (some (.error f)) = .fault f := rfl
@[simp] theorem State.finish_none (s : State) : s.finish none = .next s.stop := rfl

/-- Execution is staging followed by the end of the tick (R90). -/
theorem exec_eq_finish (i : Instr) (s : State) : exec i s = s.finish (staged i s) := by
  cases i with
  | ldur rt rn off | stur rt rn off =>
    simp only [exec, execLdur, execStur, staged, State.finish]
    cases accessSlot (s.effectiveAddress rn off) <;> rfl
  | _ => rfl

/-- Every next state of an instruction commits what it staged, or is the state stopped. -/
theorem exec_next (i : Instr) (s t : State) (h : exec i s = .next t) :
    (∃ e, staged i s = some (.ok e) ∧ t = s.commit e) ∨ t = s.stop := by
  rw [exec_eq_finish] at h
  match hx : staged i s with
  | some (.ok e) =>
    rw [hx, State.finish_some_ok] at h
    cases h
    exact .inl ⟨e, rfl, rfl⟩
  | some (.error f) =>
    rw [hx, State.finish_some_error] at h
    cases h
  | none =>
    rw [hx, State.finish_none] at h
    cases h
    exact .inr rfl

/-- The record of the last outputs takes no part in staging. -/
@[simp] theorem staged_setAnswer (i : Instr) (s : State) (a : Option Answer) :
    staged i { s with answer := a } = staged i s := by
  cases i <;> rfl

@[simp] theorem State.finish_setAnswer (s : State) (a : Option Answer)
    (x : Option (Except Fault Effects)) : ({ s with answer := a } : State).finish x = s.finish x := by
  match x with
  | some (.ok _) => rfl
  | some (.error _) => rfl
  | none => rfl

@[simp] theorem exec_setAnswer (i : Instr) (s : State) (a : Option Answer) :
    exec i { s with answer := a } = exec i s := by
  simp [exec_eq_finish]

/-- An LDUR that completes writes its Rt and goes on to the next slot (R103). -/
theorem staged_ldur_ok {rt rn : RegIdx} {off : BitVec 9} {s : State} {e : Effects}
    (h : staged (.ldur rt rn off) s = some (.ok e)) : (∃ v, e.reg = some (rt, v)) ∧ e.delta = 1 := by
  rcases accessSlot_cases (s.effectiveAddress rn off) with ⟨-, ha⟩ | ⟨-, ha⟩ <;>
    simp only [staged, ha, Except.map, Option.some.injEq, Except.ok.injEq, reduceCtorEq] at h
  subst h
  exact ⟨⟨_, rfl⟩, rfl⟩

/-- A STUR that completes writes no register and goes on to the next slot (R104). -/
theorem staged_stur_ok {rt rn : RegIdx} {off : BitVec 9} {s : State} {e : Effects}
    (h : staged (.stur rt rn off) s = some (.ok e)) : e.reg = none ∧ e.delta = 1 := by
  rcases accessSlot_cases (s.effectiveAddress rn off) with ⟨-, ha⟩ | ⟨-, ha⟩ <;>
    simp only [staged, ha, Except.map, Option.some.injEq, Except.ok.injEq, reduceCtorEq] at h
  subst h
  exact ⟨rfl, rfl⟩

/-- The register an instruction writes when it completes is the one listed as Dest, and there is none
where none is listed (R115). -/
theorem dest_iff_staged_reg (i : Instr) (s : State) (e : Effects) (h : staged i s = some (.ok e))
    (r : RegIdx) : (r, Role.dest) ∈ operands i ↔ ∃ v, e.reg = some (r, v) := by
  cases i with
  | add | sub | addi | subi => cases h; simp [operands, Effects.ofReg, eq_comm]
  | ldur rt rn off =>
    obtain ⟨⟨v, hreg⟩, -⟩ := staged_ldur_ok h
    simp [operands, hreg, eq_comm]
  | stur rt rn off =>
    obtain ⟨hreg, -⟩ := staged_stur_ok h
    simp [operands, hreg]
  | b | cbz | cbnz => cases h; simp [operands, Effects.ofDelta]
  | none | comment => cases h

/-- A conditional branch falls through or goes by its offset (R88). -/
theorem branchDelta_cases (taken : Bool) (k : Int) :
    branchDelta taken k = 1 ∨ branchDelta taken k = k := by
  cases taken with
  | false => exact .inl rfl
  | true => exact .inr rfl

/-- A completed instruction goes on to the next slot or to the target the decoder gives for it (R88,
R117). -/
theorem staged_delta (i : Instr) (s : State) (e : Effects) (h : staged i s = some (.ok e)) :
    e.delta = 1 ∨ target i s.pc = some (branchTarget s.pc e.delta) := by
  cases i with
  | add | sub | addi | subi => cases h; exact .inl rfl
  | ldur rt rn off => exact .inl (staged_ldur_ok h).2
  | stur rt rn off => exact .inl (staged_stur_ok h).2
  | b => cases h; exact .inr rfl
  | cbz rt imm | cbnz rt imm =>
    cases h
    exact (branchDelta_cases _ (sext imm)).imp_right fun hk => by simp [target, Effects.ofDelta, hk]
  | none | comment => cases h

/-- What an instruction stages depends on memory and on the registers listed as Source only (R115). -/
theorem staged_eq_of_sources (i : Instr) (s₁ s₂ : State) (hmem : s₁.mem = s₂.mem)
    (hsrc : ∀ r, (r, Role.source) ∈ operands i → s₁.readReg r = s₂.readReg r) :
    staged i s₁ = staged i s₂ := by
  cases i with
  | add rd rn rm | sub rd rn rm =>
    obtain ⟨hn, hm⟩ : s₁.readReg rn = s₂.readReg rn ∧ s₁.readReg rm = s₂.readReg rm := by
      simpa [operands] using hsrc
    simp only [staged, State.regVal, hn, hm]
  | addi rd rn imm | subi rd rn imm =>
    have hn : s₁.readReg rn = s₂.readReg rn := by simpa [operands] using hsrc
    simp only [staged, State.regVal, hn]
  | ldur rt rn off =>
    have hn : s₁.readReg rn = s₂.readReg rn := by simpa [operands] using hsrc
    simp only [staged, State.effectiveAddress, hn, hmem]
  | stur rt rn off =>
    obtain ⟨ht, hn⟩ : s₁.readReg rt = s₂.readReg rt ∧ s₁.readReg rn = s₂.readReg rn := by
      simpa [operands] using hsrc
    simp only [staged, State.effectiveAddress, ht, hn]
  | cbz rt imm | cbnz rt imm =>
    have ht : s₁.readReg rt = s₂.readReg rt := by simpa [operands] using hsrc
    simp only [staged, State.zeroCondition, State.nonZeroCondition, ht]
  | b | none | comment => rfl

/-- A halt marker, which stages nothing, lists no operand. -/
theorem operands_eq_nil_of_staged_none (i : Instr) (s : State) (h : staged i s = none) :
    operands i = [] := by
  cases i with
  | none | comment => rfl
  | _ => cases h

/-- The register a commit writes reads, after it, the staged value, or 0 where it is the zero register:
never anything of the state before. -/
theorem State.readReg_commit_staged (s : State) (e : Effects) (r : RegIdx) (v : Word)
    (h : e.reg = some (r, v)) : (s.commit e).readReg r = if r = 31#5 then 0#64 else v := by
  rw [State.readReg_commit, h]
  by_cases hr : r = 31#5
  · subst hr
    exact RegFile.read_zero s.regs
  · simp [hr]

/-- A register that the commit does not write reads as before. -/
theorem State.readReg_commit_other (s : State) (e : Effects) (r : RegIdx)
    (h : ∀ v, e.reg ≠ some (r, v)) : (s.commit e).readReg r = s.readReg r := by
  rw [State.readReg_commit]
  match hreg : e.reg with
  | none => rfl
  | some (i, v) =>
    have hne : r ≠ i := fun hi => h v (hi ▸ hreg)
    simp [hne]

end Sys2Proof.Machine
end

section
/-! SUPPORT. The host's register port and program edits, one equation per way a port can answer (R34, R38,
R39, R141). -/

namespace Sys2Proof.Machine

/-! The register port -/

/-- An index of the port below 31 names that storage register. -/
theorem RegFile.read_ofNat (r : RegFile) (k : Nat) (h : k < 31) : r.read (BitVec.ofNat 5 k) = r[k] := by
  have hk : (BitVec.ofNat 5 k).toNat = k := by simp; omega
  simp [RegFile.read, hk, h]

theorem State.hostGetReg_of_le (s : State) {idx : Nat} (h : idx ≤ 31) :
    s.hostGetReg idx = .ok (s.readReg (BitVec.ofNat 5 idx)) := if_pos h

theorem State.hostGetReg_of_gt (s : State) {idx : Nat} (h : 31 < idx) :
    s.hostGetReg idx = .error (.registerError idx) := if_neg (Nat.not_le.2 h)

theorem State.hostSetReg_of_le (s : State) {idx : Nat} (v : Word) (h : idx ≤ 31) :
    s.hostSetReg idx v = .ok (s.writeReg (BitVec.ofNat 5 idx) v) := if_pos h

theorem State.hostSetReg_of_gt (s : State) {idx : Nat} (v : Word) (h : 31 < idx) :
    s.hostSetReg idx v = .error (.registerError idx) := if_neg (Nat.not_le.2 h)

/-- A write to the zero register changes no state (R23). -/
theorem State.writeReg_zero (s : State) (v : Word) : s.writeReg 31#5 v = s := rfl

/-- The zero register reads 0 (R22). -/
theorem State.readReg_zero (s : State) : s.readReg 31#5 = 0#64 := RegFile.read_zero s.regs

/-- Every register reads 0 after reset (D24). -/
theorem State.readReg_reset (i : RegIdx) : State.reset.readReg i = 0#64 := by
  unfold State.readReg RegFile.read
  split
  · exact Vector.getElem_replicate _
  · rfl

/-- A written index of the port is read back (R39). -/
theorem State.hostGetReg_writeReg_same (s : State) (idx : Nat) (v : Word) (h : idx ≤ 30) :
    (s.writeReg (BitVec.ofNat 5 idx) v).hostGetReg idx = .ok v := by
  have hne : BitVec.ofNat 5 idx ≠ 31#5 := by bv_omega
  rw [State.hostGetReg_of_le _ (by omega), State.readReg_writeReg, if_pos ⟨rfl, hne⟩]

/-- Every other index of the port reads as before (R39). -/
theorem State.hostGetReg_writeReg_other (s : State) (idx j : Nat) (v : Word) (h : idx ≤ 31)
    (hj : j ≤ 31) (hne : j ≠ idx) :
    (s.writeReg (BitVec.ofNat 5 idx) v).hostGetReg j = s.hostGetReg j := by
  have hne' : BitVec.ofNat 5 j ≠ BitVec.ofNat 5 idx := by bv_omega
  rw [State.hostGetReg_of_le _ hj, State.hostGetReg_of_le _ hj, State.readReg_writeReg,
    if_neg fun hc => hne' hc.1]

/-! Edits of the program -/

/-- Inserting at a position of a list puts the value between what stands before and what stands from
there on. -/
theorem insertIdx_eq_take_cons_drop {α : Type} (l : List α) (k : Nat) (a : α) (h : k ≤ l.length) :
    l.insertIdx k a = l.take k ++ a :: l.drop k := by
  obtain ⟨l₁, l₂, rfl, rfl, hins⟩ := List.exists_of_modifyTailIdx (List.cons a) h
  simpa [List.insertIdx] using hins

theorem State.appendLine_of_parse (s : State) {line : Text} {i : Instr} (h : parse line = .ok i) :
    s.appendLine line = .ok { s with prog := s.prog ++ [.decoded i] } := by
  simp only [State.appendLine, h]

theorem State.insertLine_of_parse (s : State) {k : Nat} {line : Text} {i : Instr}
    (hk : k ≤ s.prog.length) (h : parse line = .ok i) :
    s.insertLine k line =
      .ok { s with prog := s.prog.take k ++ .decoded i :: s.prog.drop k } := by
  simp only [State.insertLine, if_pos hk, h, insertIdx_eq_take_cons_drop _ _ _ hk]

theorem State.replaceLine_of_parse (s : State) {k : Nat} {line : Text} {i : Instr}
    (hk : k < s.prog.length) (h : parse line = .ok i) :
    s.replaceLine k line =
      .ok { s with prog := s.prog.take k ++ .decoded i :: s.prog.drop (k + 1) } := by
  simp only [State.replaceLine, if_pos hk, h, List.set_eq_take_append_cons_drop]

theorem State.removeLine_of_lt (s : State) {k : Nat} (hk : k < s.prog.length) :
    s.removeLine k = .ok { s with prog := s.prog.take k ++ s.prog.drop (k + 1) } := by
  simp only [State.removeLine, if_pos hk, List.eraseIdx_eq_take_drop_succ]

theorem State.insertLine_noSuchEntry (s : State) {k : Nat} (line : Text) (hk : s.prog.length < k) :
    s.insertLine k line = .error (.noSuchEntry k) := if_neg (Nat.not_le.2 hk)

theorem State.replaceLine_noSuchEntry (s : State) {k : Nat} (line : Text) (hk : s.prog.length ≤ k) :
    s.replaceLine k line = .error (.noSuchEntry k) := if_neg (Nat.not_lt.2 hk)

theorem State.removeLine_noSuchEntry (s : State) {k : Nat} (hk : s.prog.length ≤ k) :
    s.removeLine k = .error (.noSuchEntry k) := if_neg (Nat.not_lt.2 hk)

/-- An edit that succeeds with a new program answers done and changes the program alone (R141). -/
theorem settle_newProgram {s : State} {p : List Entry} {r : Except EditError State}
    (h : r = .ok { s with prog := p }) :
    ∃ t, settle s .editError r = (t, .done) ∧ t.prog = p ∧
      t.regs = s.regs ∧ t.pc = s.pc ∧ t.mem = s.mem := by
  subst h
  exact ⟨_, settle_ok .., rfl, rfl, rfl, rfl⟩

/-- An edit that is refused leaves the state and reports why. -/
theorem settle_refused {s : State} {e : EditError} {r : Except EditError State} (h : r = .error e) :
    settle s .editError r = (s, .editError e) := by
  subst h
  exact settle_error ..

end Sys2Proof.Machine
end

section
/-! The obligations of the state family (10_state.md). -/

namespace Sys2Proof.Machine

/-- Settles O19: a completed tick commits what the fetched instruction staged, whose delta is 1 or goes to
its target. -/
theorem pcGoesToNextSlotOrBranchTarget : Obligations.PcGoesToNextSlotOrBranchTarget := by
  intro s t hstep hrun
  rcases step_cases s with ⟨-, hs⟩ | ⟨w, -, hs⟩ | ⟨i, hfetch, hs⟩ <;> rw [hs] at hstep
  · cases hstep
    simp at hrun
  · cases hstep
  · obtain ⟨e, he, rfl⟩ | rfl := exec_next i s t hstep
    · refine (staged_delta i s e he).imp (fun hdelta => ?_) (fun htarget => ⟨i, hfetch, htarget⟩)
      have hpc := u64_toNat (uval s.pc + e.delta)
      rw [State.commit_pc]
      unfold uval at hpc ⊢
      omega
    · simp at hrun

/-- Settles O40: a commit changes the staged register alone, and that one is listed as Dest. -/
theorem onlyDestOperandsChange : Obligations.OnlyDestOperandsChange := by
  intro i s t r hexec hchanged
  obtain ⟨e, he, rfl⟩ | rfl := exec_next i s t hexec
  · rw [dest_iff_staged_reg i s e he]
    by_contra hnone
    exact hchanged (s.readReg_commit_other e r fun v hv => hnone ⟨v, hv⟩)
  · exact absurd (s.stop_readReg r) hchanged

/-- Settles O41: both states stage the same, and the commit of it gives the register listed as Dest a
value that comes from what was staged. -/
theorem sourceOperandsDetermineTheEffect : Obligations.SourceOperandsDetermineTheEffect := by
  intro i s₁ s₂ hpc hmem _ hsrc
  have hstaged := staged_eq_of_sources i s₁ s₂ hmem hsrc
  rw [exec_eq_finish, exec_eq_finish, ← hstaged]
  match hx : staged i s₁ with
  | some (.error f) => exact .inl ⟨f, rfl, rfl⟩
  | some (.ok e) =>
    refine .inr ⟨_, _, rfl, rfl, by simp [hpc], by simp [hmem], by simp [hpc], fun r hr => ?_⟩
    obtain ⟨v, hv⟩ := (dest_iff_staged_reg i s₁ e hx r).1 hr
    rw [s₁.readReg_commit_staged e r v hv, s₂.readReg_commit_staged e r v hv]
  | none =>
    have hnil := operands_eq_nil_of_staged_none i s₁ hx
    exact .inr ⟨_, _, rfl, rfl, hpc, hmem, by simp [hpc], by simp [hnil]⟩

/-- Settles O30: each clause is one answer of the port, at the indices it holds for. -/
theorem hostRegisterPortHasThirtyTwoIndices : Obligations.HostRegisterPortHasThirtyTwoIndices := by
  intro s idx v
  refine ⟨fun h => ?_, ?_, fun h => ?_, fun k hk => ?_, rfl, rfl, rfl, rfl, rfl⟩
  · exact ⟨_, s.hostSetReg_of_le v (by omega), s.hostGetReg_writeReg_same idx v h,
      fun j hj hne => s.hostGetReg_writeReg_other idx j v (by omega) hj hne, rfl, rfl, rfl⟩
  · rintro rfl
    exact ⟨s.hostSetReg_of_le v le_rfl, s.hostGetReg_of_le le_rfl⟩
  · have hset := s.hostSetReg_of_gt v h
    exact ⟨hset, s.hostGetReg_of_gt h, by simp [State.hostMove, hset]⟩
  · rw [s.hostGetReg_of_le (by omega)]
    exact congrArg _ (s.regs.read_ofNat k hk)

/-- Settles O54: each edit either gives the program the statement names or is refused. -/
theorem programEditsCommitTheParsedLine : Obligations.ProgramEditsCommitTheParsedLine := by
  intro s k line
  refine ⟨fun i hparse => ⟨?_, fun hk => ?_, fun hk => ?_⟩, fun hk => ?_, fun hk => ?_,
    fun hk => ⟨?_, ?_⟩⟩
  · exact settle_newProgram (s.appendLine_of_parse hparse)
  · exact settle_newProgram (s.insertLine_of_parse hk hparse)
  · exact settle_newProgram (s.replaceLine_of_parse hk hparse)
  · exact settle_newProgram (s.removeLine_of_lt hk)
  · exact settle_refused (s.insertLine_noSuchEntry line hk)
  · exact settle_refused (s.replaceLine_noSuchEntry line hk)
  · exact settle_refused (s.removeLine_noSuchEntry hk)

/-- Settles O18: a next state is a commit or the state stopped, and neither writes the program. -/
theorem programStoreIsNeverWritten : Obligations.ProgramStoreIsNeverWritten := by
  intro s t h
  obtain ⟨e, rfl⟩ | rfl := step_next s t h
  · exact s.commit_prog e
  · exact s.stop_prog

/-- Settles O22: fetch, staging and both ends of a tick leave the record unread. -/
theorem tickIgnoresTheRecordedAnswer : Obligations.TickIgnoresTheRecordedAnswer := by
  intro s a
  simp only [step, State.fetch_setAnswer, State.stop_setAnswer, exec_setAnswer]

/-- Settles O29, from the register file's read after write. -/
theorem zeroRegisterReadsZeroAndDiscardsWrites : Obligations.ZeroRegisterReadsZeroAndDiscardsWrites := by
  intro s v
  exact ⟨s.readReg_zero, s.writeReg_zero v, fun i hi =>
    ⟨s.regs.read_write_same i v hi, fun j hj => s.regs.read_write_other i j v hj⟩⟩

/-- Settles O35: each piece of the reset state, read. -/
theorem resetLeavesEverythingZero : Obligations.ResetLeavesEverythingZero :=
  ⟨State.readReg_reset, rfl, fun a ha => memRead_aligned _ a ha, rfl, rfl, reset_wf⟩

end Sys2Proof.Machine
end

section
/-! SUPPORT. Facts of the memory family: the host's memory write, the occupied set, what keeps memory in its
canonical form, and the ranges a context computation covers (20_memory.md R40 to R44, R55). -/

namespace Sys2Proof.Machine

/-! Reads and writes -/

/-- A write at an aligned address (R43). -/
theorem memWrite_aligned (m : Memory) (a v : Word) (h : a.toNat % 8 = 0) :
    memWrite m a v = .ok (m.set (slotOf a).toNat v) := by
  unfold memWrite
  rcases accessSlot_cases a with ⟨-, e⟩ | ⟨h', -⟩
  · rw [e]
  · exact absurd h h'

/-- A write at any other address (R43, R46). -/
theorem memWrite_misaligned (m : Memory) (a v : Word) (h : a.toNat % 8 ≠ 0) :
    memWrite m a v = .error (.alignmentError a) := by
  unfold memWrite
  rcases accessSlot_cases a with ⟨h', -⟩ | ⟨-, e⟩
  · exact absurd h' h
  · rw [e]

/-- A slot just written reads the word written, 0 included (R43). -/
theorem Memory.get_set_same (m : Memory) (a : Nat) (v : Word) (h : m.wf = true) :
    (m.set a v).get a = v := by
  rw [Memory.get_set m a a v h, if_pos rfl]

/-! The occupied set -/

/-- The occupied slots of a canonical memory are strictly ascending (R44, D26). -/
theorem Memory.used_pairwise (m : Memory) (h : m.wf = true) : m.used.Pairwise (· < ·) := by
  induction m with
  | nil => exact List.Pairwise.nil
  | cons c m ih =>
    obtain ⟨k, v⟩ := c
    obtain ⟨-, -, habove, hm⟩ := (Memory.wf_cons k v m).1 h
    exact List.Pairwise.cons (List.forall_mem_map.2 habove) (ih hm)

/-- The occupied slots after a write: its own slot exactly when the word is not 0, every other as before
(R44). -/
theorem Memory.mem_used_set (m : Memory) (a : Nat) (v : Word) (k : Nat) (h : m.wf = true)
    (ha : a < Config.slotCount) :
    k ∈ (m.set a v).used ↔ (k = a ∧ v ≠ 0#64) ∨ (k ≠ a ∧ k ∈ m.used) := by
  rw [Memory.mem_used _ (Memory.set_wf m a v h ha), Memory.get_set m a k v h, Memory.mem_used m h]
  by_cases hk : k = a <;> simp [hk]

/-! What keeps memory canonical -/

/-- A tick keeps memory canonical: its next state is a commit, whose data request is the only thing that
changes memory, or the state stopped. -/
theorem step_wf {s t : State} (h : s.wf = true) (hstep : step s = .next t) : t.wf = true := by
  obtain ⟨e, rfl⟩ | rfl := step_next s t hstep
  · exact Memory.apply_wf s.mem e.request h
  · exact h

/-- The host's tick leaves the tick's next state, or the state as it was (R91). -/
theorem State.afterTick_cases (s : State) : step s = .next s.afterTick ∨ s.afterTick = s := by
  unfold State.afterTick
  cases step s with
  | next t => exact .inl rfl
  | fault e => exact .inr rfl
  | refused r => exact .inr rfl

theorem State.afterTick_wf {s : State} (h : s.wf = true) : s.afterTick.wf = true := by
  obtain hnext | hsame := s.afterTick_cases
  · exact step_wf h hnext
  · rwa [hsame]

/-- A host register write leaves memory alone (R39). -/
theorem State.hostSetReg_mem {s t : State} {idx : Nat} {v : Word} (h : s.hostSetReg idx v = .ok t) :
    t.mem = s.mem := by
  unfold State.hostSetReg at h
  split at h <;> cases h
  rfl

theorem State.appendLine_mem {s t : State} {line : Text} (h : s.appendLine line = .ok t) :
    t.mem = s.mem := by
  unfold State.appendLine at h
  split at h <;> cases h
  rfl

theorem State.insertLine_mem {s t : State} {k : Nat} {line : Text}
    (h : s.insertLine k line = .ok t) : t.mem = s.mem := by
  unfold State.insertLine at h
  split at h
  · split at h <;> cases h
    rfl
  · cases h

theorem State.removeLine_mem {s t : State} {k : Nat} (h : s.removeLine k = .ok t) :
    t.mem = s.mem := by
  unfold State.removeLine at h
  split at h <;> cases h
  rfl

theorem State.replaceLine_mem {s t : State} {k : Nat} {line : Text}
    (h : s.replaceLine k line = .ok t) : t.mem = s.mem := by
  unfold State.replaceLine at h
  split at h
  · split at h <;> cases h
    rfl
  · cases h

/-- A host memory write keeps memory canonical (R43). -/
theorem State.hostSetMem_wf {s t : State} {addr v : Word} (hs : s.wf = true)
    (h : s.hostSetMem addr v = .ok t) : t.wf = true := by
  unfold State.hostSetMem at h
  cases hw : memWrite s.mem addr v with
  | error e => rw [hw] at h; cases h
  | ok m =>
    rw [hw] at h
    cases h
    exact memWrite_wf s.mem m addr v hs hw

/-- Every state a snapshot loads has canonical memory, whatever the order of its mapping (R138). -/
theorem Snapshot.load_wf {snap : Snapshot} {t : State} (h : snap.load = .ok t) : t.wf = true := by
  unfold Snapshot.load at h
  split at h
  · cases h
  · split at h
    · next hmap =>
      split at h <;> cases h
      exact loadMemory_wf snap.mem hmap
    · cases h

theorem SnapshotSource.load_wf {src : SnapshotSource} {t : State} (h : src.load = .ok t) :
    t.wf = true := by
  cases src with
  | unreadable | malformed => cases h
  | readAs snap => exact Snapshot.load_wf h

/-- A move that may fail keeps memory canonical when its success does: a failure leaves the state. -/
theorem settle_wf {ε : Type} {s : State} {report : ε → HostReply} {r : Except ε State}
    (hs : s.wf = true) (hok : ∀ t, r = .ok t → t.wf = true) : (settle s report r).1.wf = true := by
  cases r with
  | ok t => exact hok t rfl
  | error e => exact hs

/-- A move that leaves memory alone when it succeeds keeps it canonical. -/
theorem settle_wf_of_mem {ε : Type} {s : State} {report : ε → HostReply} {r : Except ε State}
    (hs : s.wf = true) (hmem : ∀ t, r = .ok t → t.mem = s.mem) : (settle s report r).1.wf = true :=
  settle_wf hs fun t ht => (congrArg Memory.wf (hmem t ht)).trans hs

/-- Every move of the host keeps memory canonical (R44, R141). -/
theorem State.hostMove_wf {s : State} (move : HostMove) (hs : s.wf = true) :
    (s.hostMove move).1.wf = true := by
  cases move with
  | getReg | getPc | setPc | getMem | getUsed | contextRanges | reflect | saveSnapshot => exact hs
  | setReg idx v => exact settle_wf_of_mem hs fun _ => State.hostSetReg_mem
  | appendLine line => exact settle_wf_of_mem hs fun _ => State.appendLine_mem
  | insertLine k line => exact settle_wf_of_mem hs fun _ => State.insertLine_mem
  | removeLine k => exact settle_wf_of_mem hs fun _ => State.removeLine_mem
  | replaceLine k line => exact settle_wf_of_mem hs fun _ => State.replaceLine_mem
  | setMem addr v => exact settle_wf hs fun _ => State.hostSetMem_wf hs
  | loadSnapshot src => exact settle_wf hs fun _ => SnapshotSource.load_wf
  | tick => exact State.afterTick_wf hs

/-! Context ranges -/

/-- `t` is one of the slots within the radius of `s`, clamped to the slot range (R55). -/
def Near (radius s t : Nat) : Prop := s - radius ≤ t ∧ t ≤ min lastSlot (s + radius)

/-- The ranges `l` hold exactly the slots of `P`, are non-empty and ascending, and no two of them overlap or
are adjacent. -/
structure RangesCover (P : Nat → Prop) (l : List (Nat × Nat)) : Prop where
  covers : ∀ t, (∃ r ∈ l, r.1 ≤ t ∧ t ≤ r.2) ↔ P t
  nonempty : ∀ r ∈ l, r.1 ≤ r.2
  apart : l.Pairwise (fun a b => a.2 + 1 < b.1)

/-- Adding the surroundings of a slot adds exactly the slots near it (R55). -/
theorem addAround_covers {P : Nat → Prop} {l : List (Nat × Nat)} (radius s : Nat)
    (h : RangesCover P l) : RangesCover (fun t => Near radius s t ∨ P t) (addAround radius s l) := by
  unfold addAround aroundSlot
  split_ifs with hne
  · obtain ⟨hcovers, hnonempty, hapart, -⟩ := insertRange_spec l (_, _) hne h.nonempty h.apart
    exact ⟨fun t => (hcovers t).trans (or_congr_right (h.covers t)), hnonempty, hapart⟩
  · have hnear (t : Nat) : ¬ Near radius s t := fun ht => hne (ht.1.trans ht.2)
    exact ⟨fun t => (h.covers t).trans (or_iff_right (hnear t)).symm, h.nonempty, h.apart⟩

/-- The ranges built from a list of slots cover exactly what is near one of them (R55). -/
theorem foldr_addAround_covers (radius : Nat) (slots : List Nat) :
    RangesCover (fun t => ∃ s ∈ slots, Near radius s t) (slots.foldr (addAround radius) []) := by
  induction slots with
  | nil => exact ⟨by simp, by simp, List.Pairwise.nil⟩
  | cons s slots ih => simpa using addAround_covers radius s ih

end Sys2Proof.Machine
end

section
/-! The obligations of the memory family (20_memory.md). -/

namespace Sys2Proof.Machine

/-- Settles O37: a next state is a commit, whose data request writes one slot at most, or the state
stopped. -/
theorem stepKeepsCanonicalMemory : Obligations.StepKeepsCanonicalMemory :=
  fun _ _ => step_wf

/-- Settles O38, by induction on the moves: each one keeps memory canonical. -/
theorem sessionKeepsCanonicalMemory : Obligations.SessionKeepsCanonicalMemory := by
  intro moves
  induction moves with
  | nil => exact fun _ hs => hs
  | cons move moves ih => exact fun s hs => ih _ (State.hostMove_wf move hs)

/-- Settles O31: an aligned access is one of its slot, a misaligned one fails. -/
theorem memoryReadAfterWrite : Obligations.MemoryReadAfterWrite := by
  intro m addr v hm
  refine ⟨fun h => ⟨?_, _, memWrite_aligned m addr v h, ?_, fun a hne => ?_⟩, fun h => ⟨?_, ?_⟩⟩
  · rw [memRead_aligned m addr h, slotOf_toNat]
  · rw [memRead_aligned _ addr h, Memory.get_set_same m _ v hm]
  · exact memRead_set_other m addr a v hm h hne
  · exact memWrite_misaligned m addr v h
  · exact memRead_misaligned m addr h

/-- Settles O32: on canonical memory being listed is reading a word that is not 0, and a write changes what
its own slot reads only. -/
theorem occupiedSetIsTheNonZeroSlots : Obligations.OccupiedSetIsTheNonZeroSlots := fun m hm =>
  ⟨m.mem_used hm, m.used_pairwise hm, fun slot v k => m.mem_used_set slot.toNat v k hm slot.isLt⟩

/-- Settles O33: the load's destination gets the word at the slot that the store's commit wrote. -/
theorem loadSeesTheStoreBeforeIt : Obligations.LoadSeesTheStoreBeforeIt := by
  intro s t u rt rn rt' rn' off off' hs hstore hload haddr hrt'
  obtain ⟨-, hexec⟩ | ⟨-, hexec⟩ := exec_stur_cases rt rn off s <;> rw [hexec] at hstore <;>
    cases hstore
  obtain ⟨-, hexec'⟩ | ⟨-, hexec'⟩ := exec_ldur_cases rt' rn' off' (s.commit _) <;>
    rw [hexec'] at hload <;> cases hload
  rw [State.readReg_commit_staged _ _ _ _ rfl, if_neg hrt', haddr]
  exact Memory.get_set_same s.mem _ _ hs

/-- Settles O53: the ranges are built slot by slot from the occupied slots and the points of interest. -/
theorem contextRangesCoverExactlyTheSurroundings :
    Obligations.ContextRangesCoverExactlyTheSurroundings := by
  intro used points radius
  obtain ⟨hcovers, hnonempty, hapart⟩ := foldr_addAround_covers radius (used ++ points)
  refine ⟨fun t => (hcovers t).trans ?_, hnonempty, hapart⟩
  simp only [List.mem_append]
  exact Iff.rfl

end Sys2Proof.Machine
end

section
/-! SUPPORT. The decoder row by row: the instruction of a row's fields, that a word's row is the one whose
mask and pattern it meets, the encoder against it, and the tick on a word of no row (30_encoding.md R62 to
R67). -/

namespace Sys2Proof

/-- The instruction a row of the opcode map gives a word, with the fields of its format (R62 to R64).
`decode_of_row` ties it to the decoder. -/
def Op.instr (w : InstrWord) : Op → Instr
  | .add => .add (fieldRd w) (fieldRn w) (fieldRm w)
  | .sub => .sub (fieldRd w) (fieldRn w) (fieldRm w)
  | .addi => .addi (fieldRd w) (fieldRn w) (fieldImm12 w)
  | .subi => .subi (fieldRd w) (fieldRn w) (fieldImm12 w)
  | .ldur => .ldur (fieldRd w) (fieldRn w) (fieldOff9 w)
  | .stur => .stur (fieldRd w) (fieldRn w) (fieldOff9 w)
  | .b => .b (fieldImm26 w)
  | .cbz => .cbz (fieldRd w) (fieldImm19 w)
  | .cbnz => .cbnz (fieldRd w) (fieldImm19 w)
  | .none => .none

/-- No word matches two rows (R64). -/
theorem row_unique {w : InstrWord} {r₁ r₂ : OpRow} (hr₁ : r₁ ∈ opRows) (hr₂ : r₂ ∈ opRows)
    (h₁ : r₁.accepts w = true) (h₂ : r₂.accepts w = true) : r₁ = r₂ :=
  opRows_agree_eq r₁ hr₁ r₂ hr₂ (accepts_agree w r₁ r₂ h₁ h₂)

/-- A word that matches a row has that row's operation, whatever the row's place in the map. -/
theorem opOf_of_row {w : InstrWord} {r : OpRow} (hr : r ∈ opRows) (h : w &&& r.mask = r.pattern) :
    opOf w = some r.op := by
  have hacc : r.accepts w = true := by simpa [OpRow.accepts] using h
  obtain ⟨r', hfind⟩ := Option.isSome_iff_exists.1
    ((List.find?_isSome (p := (OpRow.accepts · w))).2 ⟨r, hr, hacc⟩)
  have hacc' := List.find?_some (p := (OpRow.accepts · w)) hfind
  have hsame : r' = r := row_unique (List.mem_of_find?_eq_some hfind) hr hacc' hacc
  rw [opOf, hfind, hsame]
  rfl

theorem decode_of_opOf {w : InstrWord} {o : Op} (h : opOf w = some o) :
    decode w = .ok (o.instr w) := by
  unfold decode
  rw [h]
  cases o <;> rfl

theorem decode_of_opOf_none {w : InstrWord} (h : opOf w = none) : decode w = .error (reject w) := by
  unfold decode
  rw [h]

/-- A word that matches a row decodes to that row's instruction (R64). -/
theorem decode_of_row {w pattern mask : InstrWord} {op : Op} (hr : ⟨op, pattern, mask⟩ ∈ opRows)
    (h : w &&& mask = pattern) : decode w = .ok (op.instr w) :=
  decode_of_opOf (opOf_of_row hr h)

/-- A word that matches no row is rejected (R67). -/
theorem decode_of_no_row {w : InstrWord} (h : ∀ row ∈ opRows, w &&& row.mask ≠ row.pattern) :
    decode w = .error (reject w) :=
  decode_of_opOf_none (opOf_eq_none w h)

/-- A word that decodes matches a row and decodes to that row's instruction (R64). -/
theorem decode_ok {w : InstrWord} {i : Instr} (h : decode w = .ok i) :
    ∃ r ∈ opRows, w &&& r.mask = r.pattern ∧ i = r.op.instr w := by
  cases hop : opOf w with
  | none => rw [decode_of_opOf_none hop] at h; cases h
  | some o =>
    rw [decode_of_opOf hop] at h
    cases h
    obtain ⟨r, hr, rfl, hmatch⟩ := opOf_eq_some w o hop
    exact ⟨r, hr, hmatch, rfl⟩

/-! Encoding the fields of a word -/

theorem encodeR_of_fields {w : InstrWord} {o : BitVec 11} (ho : fieldOpcode11 w = o)
    (hs : fieldShamt w = 0#6) : encodeR o (fieldRd w) (fieldRn w) (fieldRm w) = w := by
  rw [encodeR, ← ho, ← hs, word_eq_fieldsR]

theorem encodeD_of_fields {w : InstrWord} {o : BitVec 11} (ho : fieldOpcode11 w = o)
    (hop : fieldOp w = 0#2) : encodeD o (fieldRd w) (fieldRn w) (fieldOff9 w) = w := by
  rw [encodeD, ← ho, ← hop, word_eq_fieldsD]

theorem encodeI_of_fields {w : InstrWord} {o : BitVec 10} (ho : w.extractLsb' 22 10 = o) :
    encodeI o (fieldRd w) (fieldRn w) (fieldImm12 w) = w := by
  rw [encodeI, ← ho, word_eq_fieldsI]

theorem encodeCB_of_fields {w : InstrWord} {o : BitVec 8} (ho : w.extractLsb' 24 8 = o) :
    encodeCB o (fieldRd w) (fieldImm19 w) = w := by
  rw [encodeCB, ← ho, word_eq_fieldsCB]

theorem encodeB_of_field {w : InstrWord} (ho : w.extractLsb' 26 6 = 0x05#6) :
    encode (.b (fieldImm26 w)) = w := by
  rw [encode, ← ho, word_eq_fieldsB]

/-- The word of a row's instruction is the word it was read from: the mask fixes the opcode and the
reserved bits, and the fields hold all others (R62, R66). -/
theorem encode_instr_of_row {w : InstrWord} {r : OpRow} (hr : r ∈ opRows)
    (h : w &&& r.mask = r.pattern) : encode (r.op.instr w) = w := by
  simp only [opRows, List.mem_cons, List.not_mem_nil, or_false] at hr
  rcases hr with rfl | rfl | rfl | rfl | rfl | rfl | rfl | rfl | rfl | rfl
  · exact encodeR_of_fields (field_of_masked h 21 11 (by decide)) (field_of_masked h 10 6 (by decide))
  · exact encodeR_of_fields (field_of_masked h 21 11 (by decide)) (field_of_masked h 10 6 (by decide))
  · exact encodeI_of_fields (field_of_masked h 22 10 (by decide))
  · exact encodeI_of_fields (field_of_masked h 22 10 (by decide))
  · exact encodeD_of_fields (field_of_masked h 21 11 (by decide)) (field_of_masked h 10 2 (by decide))
  · exact encodeD_of_fields (field_of_masked h 21 11 (by decide)) (field_of_masked h 10 2 (by decide))
  · exact encodeB_of_field (field_of_masked h 26 6 (by decide))
  · exact encodeCB_of_fields (field_of_masked h 24 8 (by decide))
  · exact encodeCB_of_fields (field_of_masked h 24 8 (by decide))
  · exact h.symm.trans (BitVec.and_allOnes (x := w))

/-- The word of every instruction but a comment decodes to that instruction (R63). -/
theorem decode_encode (i : Instr) (h : ∀ text, i ≠ .comment text) : decode (encode i) = .ok i := by
  cases i with
  | add d n m =>
    rw [encode, decode_of_row (op := .add) (by decide) (encodeR_mask _ d n m)]
    simp only [Op.instr, encodeR_fields]
  | sub d n m =>
    rw [encode, decode_of_row (op := .sub) (by decide) (encodeR_mask _ d n m)]
    simp only [Op.instr, encodeR_fields]
  | addi d n k =>
    rw [encode, decode_of_row (op := .addi) (by decide) (encodeI_mask _ d n k)]
    simp only [Op.instr, encodeI_fields]
  | subi d n k =>
    rw [encode, decode_of_row (op := .subi) (by decide) (encodeI_mask _ d n k)]
    simp only [Op.instr, encodeI_fields]
  | ldur t n o =>
    rw [encode, decode_of_row (op := .ldur) (by decide) (encodeD_mask _ t n o)]
    simp only [Op.instr, encodeD_fields]
  | stur t n o =>
    rw [encode, decode_of_row (op := .stur) (by decide) (encodeD_mask _ t n o)]
    simp only [Op.instr, encodeD_fields]
  | b k =>
    rw [encode, decode_of_row (op := .b) (by decide) (encodeB_mask _ k), Op.instr, encodeB_field]
  | cbz t k =>
    rw [encode, decode_of_row (op := .cbz) (by decide) (encodeCB_mask _ t k)]
    simp only [Op.instr, encodeCB_fields]
  | cbnz t k =>
    rw [encode, decode_of_row (op := .cbnz) (by decide) (encodeCB_mask _ t k)]
    simp only [Op.instr, encodeCB_fields]
  | none => exact decode_of_row (op := .none) (pattern := 0#32) (mask := 0xFFFFFFFF#32) (by decide) rfl
  | comment text => exact absurd rfl (h text)

end Sys2Proof

namespace Sys2Proof.Machine

/-- A tick that fetches a word that decodes to nothing raises DecodeError with the word (R67, R122). -/
theorem step_of_illegal_word {s : State} {w : InstrWord} {r : Illegal}
    (hentry : s.prog[s.pc.toNat]? = some (.word w)) (h : decode w = .error r) :
    step s = .fault (.decodeError r.word) := by
  simp [step, s.fetch_entry _ hentry, Entry.fetched, h, raise]

/-- A tick that raises leaves the state as it was (R91). -/
theorem State.afterTick_of_fault {s : State} {e : Fault} (h : step s = .fault e) : s.afterTick = s := by
  simp [State.afterTick, h]

/-- The outputs of a tick that raises (R95). -/
theorem State.transaction_of_fault {s : State} {e : Fault} (h : step s = .fault e) :
    s.transaction = some (s.errorAnswer e) := by
  simp [State.transaction, h]

end Sys2Proof.Machine
end

section
/-! The obligations on the binary layout. -/

namespace Sys2Proof.Machine

/-- Settles O25: the word meets its operation's row, whose fields are the operands; a comment's word is the
word of NONE. -/
theorem decodeOfEncodeIsTheInstruction : Obligations.DecodeOfEncodeIsTheInstruction := by
  refine fun i => ⟨decode_encode i, ?_⟩
  rintro text rfl
  exact decode_encode .none nofun

/-- Settles O26: a word that decodes meets a row, and the row's instruction has that word. -/
theorem encodeOfDecodeIsTheWord : Obligations.EncodeOfDecodeIsTheWord := by
  intro w i h
  obtain ⟨r, hr, hmatch, rfl⟩ := decode_ok h
  exact encode_instr_of_row hr hmatch

/-- Settles O14: the word decodes to nothing, so the tick raises. -/
theorem illegalWordRaisesDecodeError : Obligations.IllegalWordRaisesDecodeError := by
  intro s w hentry hrows
  have hstep := step_of_illegal_word hentry (decode_of_no_row hrows)
  rw [reject_word] at hstep
  exact ⟨hstep, s.afterTick_of_fault hstep, s.transaction_of_fault hstep⟩

/-- Settles O23: each row in turn, then the words of none. -/
theorem decodeFollowsTheOpcodeMap : Obligations.DecodeFollowsTheOpcodeMap := by
  intro w
  refine ⟨?_, ?_, ?_, ?_, ?_, ?_, ?_, ?_, ?_, ?_, ?_⟩
  · exact decode_of_row (op := .add) (by decide)
  · exact decode_of_row (op := .sub) (by decide)
  · exact decode_of_row (op := .addi) (by decide)
  · exact decode_of_row (op := .subi) (by decide)
  · exact decode_of_row (op := .ldur) (by decide)
  · exact decode_of_row (op := .stur) (by decide)
  · exact decode_of_row (op := .b) (by decide)
  · exact decode_of_row (op := .cbz) (by decide)
  · exact decode_of_row (op := .cbnz) (by decide)
  · rintro rfl
    exact decode_encode .none nofun
  · exact fun h => ⟨reject w, decode_of_no_row h, reject_word w⟩

/-- Settles O24: two rows that one word matches agree on the bits both fix, and no two rows of the map do. -/
theorem opcodeRowsArePairwiseDisjoint : Obligations.OpcodeRowsArePairwiseDisjoint :=
  fun _ _ _ => row_unique

/-- Settles O27: the words that decode are the words of their instructions, field by field, and the others
match no row. -/
theorem sampleWordsDecode : Obligations.SampleWordsDecode :=
  ⟨decode_encode (.add 1 2 3) nofun, decode_encode (.subi 30 30 4095) nofun,
    decode_encode (.ldur 0 1 (-256)) nofun, decode_encode (.stur 2 3 255) nofun,
    decode_encode (.b (-1)) nofun, decode_encode (.cbz 0 (-262144)) nofun,
    decode_encode (.cbnz 30 262143) nofun, decode_encode .none nofun,
    decode_of_no_row (by decide), decode_of_no_row (by decide), decode_of_no_row (by decide)⟩

end Sys2Proof.Machine
end

section
/-! SUPPORT. Lines of the assembler: what trimming and case-folding leave, the canonical text of a record
with its parse, the validator's verdicts, and what a failing move of the host leaves (30_encoding.md R57,
R58, R71 to R82; 70_reset_and_hazards.md R135, R143). -/

namespace Sys2Proof.Machine

/-! Trimming -/

theorem skipBlanks_eq_nil {u : Text} (h : ∀ c ∈ u, Config.isBlank c = true) : skipBlanks u = [] :=
  List.dropWhile_eq_nil_iff.2 h

/-- White space behind a line is skipped with the line, or stays behind what the line leaves. -/
theorem skipBlanks_append_blanks (line : Text) {after : Text}
    (h : ∀ c ∈ after, Config.isBlank c = true) :
    skipBlanks (line ++ after) = if skipBlanks line = [] then [] else skipBlanks line ++ after := by
  have hnil : after.dropWhile Config.isBlank = [] := skipBlanks_eq_nil h
  simp [skipBlanks, List.dropWhile_append, hnil]

/-- White space around a line is trimmed (R71). -/
theorem trim_surrounded {before after : Text} (line : Text)
    (hb : ∀ c ∈ before, Config.isBlank c = true) (ha : ∀ c ∈ after, Config.isBlank c = true) :
    trim (before ++ line ++ after) = trim line := by
  have hrev : ∀ c ∈ after.reverse, Config.isBlank c = true := by simpa using ha
  rw [trim, trim, List.append_assoc, skipBlanks_append _ _ hb, skipBlanks_append_blanks line ha]
  split
  · rename_i hline
    rw [hline]
  · rw [List.reverse_append, skipBlanks_append _ _ hrev]

theorem trim_eq_nil {line : Text} (h : ∀ c ∈ line, Config.isBlank c = true) : trim line = [] := by
  rw [trim, skipBlanks_eq_nil h]
  rfl

/-- A line is white space, then its trimmed text, then a rest. -/
theorem exists_eq_blanks_append_trim (line : Text) :
    ∃ before after, (∀ c ∈ before, Config.isBlank c = true) ∧ line = before ++ trim line ++ after := by
  have hpre : trim line <+: skipBlanks line := by
    rw [← List.reverse_suffix, trim, List.reverse_reverse]
    exact List.dropWhile_suffix _
  obtain ⟨after, hafter⟩ := hpre
  refine ⟨line.takeWhile Config.isBlank, after, fun c => List.mem_takeWhile_imp, ?_⟩
  rw [List.append_assoc, hafter]
  exact (List.takeWhile_append_dropWhile ..).symm

/-- The parse of a line depends on its trimmed text only (R71). -/
theorem parse_eq_of_trim_eq {line₁ line₂ : Text} (h : trim line₁ = trim line₂) :
    parse line₁ = parse line₂ := by
  unfold parse
  rw [h]

/-! Case-folding -/

theorem trim_fold (line : Text) : trim (fold line) = fold (trim line) := by
  have hrev : ∀ u : Text, (fold u).reverse = fold u.reverse := fun u => by simp [fold]
  rw [trim, trim, skipBlanks_fold, hrev, skipBlanks_fold, hrev]

theorem fold_eq_map_toLower (line : Text) : fold line = line.map Char.toLower :=
  List.map_congr_left fun c _ => foldChar_eq_toLower c

/-- Folding neither makes nor removes the comment marker. -/
theorem commentMarker_isPrefixOf_fold (u : Text) :
    Config.commentMarker.isPrefixOf (fold u) = Config.commentMarker.isPrefixOf u := by
  have hslash : ∀ c, ('/' == foldChar c) = ('/' == c) := fun c => by
    rw [Bool.eq_iff_iff, beq_iff_eq, beq_iff_eq, eq_comm, (foldChar_spec c).2.2, eq_comm]
  match u with
  | [] => rfl
  | [c] => simp [Config.commentMarker, fold, List.isPrefixOf]
  | c :: d :: v => simp [Config.commentMarker, fold, List.isPrefixOf, hslash]

/-- Two lines that are no comments and differ in letter case only parse alike (R71). -/
theorem parse_eq_of_fold_trim_eq {line₁ line₂ : Text} (h : fold (trim line₁) = fold (trim line₂))
    (hc : Config.commentMarker.isPrefixOf (trim line₁) = false) : parse line₁ = parse line₂ := by
  have hnil : trim line₁ = [] ↔ trim line₂ = [] := by
    rw [← List.map_eq_nil_iff (f := foldChar), ← List.map_eq_nil_iff (f := foldChar) (l := trim line₂)]
    exact iff_of_eq (congrArg (· = []) h)
  have hc' : Config.commentMarker.isPrefixOf (trim line₂) = false := by
    rw [← commentMarker_isPrefixOf_fold, ← h, commentMarker_isPrefixOf_fold, hc]
  unfold parse
  rw [hc, hc', h]
  simp only [hnil, Bool.false_eq_true, if_false]

/-! Blank lines and comments -/

theorem parse_blank {line : Text} (h : ∀ c ∈ line, Config.isBlank c = true) : parse line = .ok .none :=
  if_pos (trim_eq_nil h)

/-- A trimmed comment line, whose text ends in no white space. -/
theorem trim_comment {text : Text} (h : lineText text = true) :
    trim (Config.commentMarker ++ text) = Config.commentMarker ++ text := by
  refine trim_of_ends _ (by simp [Config.commentMarker, Config.isBlank]) ?_
  unfold lineText at h
  rw [List.getLast?_append]
  cases hlast : text.getLast? with
  | none => simp [Config.commentMarker, Config.isBlank]
  | some c => simpa [hlast] using h

/-- A line that opens with the marker after white space is a comment of the rest (R73). -/
theorem parse_comment {blanks text : Text} (hb : ∀ c ∈ blanks, Config.isBlank c = true)
    (h : lineText text = true) :
    parse (blanks ++ Config.commentMarker ++ text) = .ok (.comment text) := by
  have htrim : trim (blanks ++ Config.commentMarker ++ text) = Config.commentMarker ++ text := by
    have hsur := trim_surrounded (after := []) (Config.commentMarker ++ text) hb (by simp)
    rwa [List.append_nil, ← List.append_assoc, trim_comment h] at hsur
  have hprefix : Config.commentMarker.isPrefixOf (Config.commentMarker ++ text) = true :=
    List.isPrefixOf_iff_prefix.2 (List.prefix_append ..)
  unfold parse
  rw [htrim, if_neg (by simp [Config.commentMarker]), if_pos hprefix, List.drop_left]

end Sys2Proof.Machine

/-! The canonical text of a record -/

namespace Sys2Proof

open Machine

/-- The letters of a mnemonic (R83). `mnemonicOf_name` ties it to the parser. -/
def Mnemonic.name : Mnemonic → Text
  | .add => ['a', 'd', 'd']
  | .sub => ['s', 'u', 'b']
  | .addi => ['a', 'd', 'd', 'i']
  | .subi => ['s', 'u', 'b', 'i']
  | .ldur => ['l', 'd', 'u', 'r']
  | .stur => ['s', 't', 'u', 'r']
  | .b => ['b']
  | .cbz => ['c', 'b', 'z']
  | .cbnz => ['c', 'b', 'n', 'z']

/-- The mnemonic of a record's line (R74, R83). -/
def RawInstr.mnemonic : RawInstr → Option Mnemonic
  | .add _ _ _ => some .add
  | .sub _ _ _ => some .sub
  | .addi _ _ _ => some .addi
  | .subi _ _ _ => some .subi
  | .ldur _ _ _ => some .ldur
  | .stur _ _ _ => some .stur
  | .b _ => some .b
  | .cbz _ _ => some .cbz
  | .cbnz _ _ => some .cbnz
  | .none | .comment _ => .none

/-- The canonical text of a register index (R21, R82). -/
def regText (i : Nat) : Text := renderReg (BitVec.ofNat 5 i)

/-- The canonical text of a record's operands, any integer as immediate (R74, R82). `render_eq_line` ties
it to the canonical text of an instruction. -/
def RawInstr.operandText : RawInstr → Text
  | .add d n m | .sub d n m => regText d ++ commaBlank ++ regText n ++ commaBlank ++ regText m
  | .addi d n k | .subi d n k =>
    regText d ++ commaBlank ++ regText n ++ commaBlank ++ '#' :: renderInt k
  | .ldur t n o | .stur t n o =>
    regText t ++ commaBlank ++ '[' :: (regText n ++ commaBlank ++ '#' :: (renderInt o ++ [']']))
  | .b k => '#' :: renderInt k
  | .cbz t k | .cbnz t k => regText t ++ commaBlank ++ '#' :: renderInt k
  | .none | .comment _ => []

end Sys2Proof

namespace Sys2Proof.Machine

theorem mnemonicOf_name (m : Mnemonic) : mnemonicOf m.name = some m := by
  cases m <;> rfl

/-- The characters of a mnemonic: letters that folding keeps. -/
theorem name_chars (m : Mnemonic) : m.name.all isLetter = true ∧ fold m.name = m.name := by
  cases m <;> decide

@[simp] theorem fold_nil : fold [] = [] := rfl

/-- Folding keeps the punctuation of canonical text. -/
@[simp] theorem foldChar_punctuation : foldChar ',' = ',' ∧ foldChar ' ' = ' ' ∧ foldChar '[' = '[' ∧
    foldChar ']' = ']' ∧ foldChar '#' = '#' := by decide

@[simp] theorem fold_renderInt (v : Int) : fold (renderInt v) = renderInt v := (renderInt_chars v).2.1

@[simp] theorem regText_toNat (i : RegIdx) : regText i.toNat = renderReg i :=
  congrArg renderReg (BitVec.ofNat_toNat ..)

/-- The line of an instruction is its record's mnemonic and operands (R82). -/
theorem render_eq_line (i : Instr) {m : Mnemonic} (h : (record i).mnemonic = some m) :
    render i = m.name ++ ' ' :: (record i).operandText := by
  cases i with
  | none | comment text => cases h
  | _ =>
    cases h
    simp [render, record, Mnemonic.name, RawInstr.operandText, regText]

/-- The operands of a record are read back (R74). -/
theorem readOperands_operandText (r : RawInstr) {m : Mnemonic} (hm : r.mnemonic = some m)
    (hr : ∀ i ∈ r.regs, i ≤ 31) : readOperands m (' ' :: fold r.operandText) = .ok r := by
  have hidx : ∀ i ∈ r.regs, ∃ x : RegIdx, x.toNat = i := fun i hi => ⟨_, regField_toNat (hr i hi)⟩
  cases r <;> cases hm <;> simp only [RawInstr.regs, List.forall_mem_cons] at hidx
  case add k | sub k =>
    obtain ⟨⟨d, rfl⟩, ⟨n, rfl⟩, ⟨k, rfl⟩, -⟩ := hidx
    simpa [readOperands, RawInstr.operandText, commaBlank, fold_append, fold_cons]
      using readThreeRegs_render _ d n k
  case addi k | subi k =>
    obtain ⟨⟨d, rfl⟩, ⟨n, rfl⟩, -⟩ := hidx
    simpa [readOperands, RawInstr.operandText, commaBlank, fold_append, fold_cons]
      using readTwoRegsImm_render _ d n k
  case ldur k | stur k =>
    obtain ⟨⟨t, rfl⟩, ⟨n, rfl⟩, -⟩ := hidx
    simpa [readOperands, RawInstr.operandText, commaBlank, fold_append, fold_cons]
      using readRegAddress_render _ t n k
  case b k =>
    simpa [readOperands, RawInstr.operandText, fold_cons] using readImm_render _ k
  case cbz k | cbnz k =>
    obtain ⟨⟨t, rfl⟩, -⟩ := hidx
    simpa [readOperands, RawInstr.operandText, commaBlank, fold_append, fold_cons]
      using readRegImm_render _ t k

/-- A text whose last character is no white space, as every operand's text is. -/
def EndsInToken (u : Text) : Prop := ∃ c, u.getLast? = some c ∧ Config.isBlank c = false

theorem endsInToken_of_ne_nil {u : Text} (hne : u ≠ [])
    (h : ∀ c ∈ u.getLast?, Config.isBlank c = false) : EndsInToken u :=
  ⟨u.getLast hne, List.getLast?_eq_some_getLast hne, h _ (List.getLast?_eq_some_getLast hne)⟩

theorem EndsInToken.append (u : Text) {v : Text} (h : EndsInToken v) : EndsInToken (u ++ v) := by
  obtain ⟨c, hlast, hc⟩ := h
  exact ⟨c, by simp [List.getLast?_append, hlast], hc⟩

theorem EndsInToken.cons (a : Char) {v : Text} (h : EndsInToken v) : EndsInToken (a :: v) :=
  h.append [a]

theorem endsInToken_regText (i : Nat) : EndsInToken (regText i) := by
  obtain ⟨-, hne, hlast, -⟩ := renderReg_chars (BitVec.ofNat 5 i)
  refine endsInToken_of_ne_nil (by simpa [fold, regText] using hne) fun c hc => ?_
  rw [regText, Option.mem_def] at hc
  simpa [hc] using hlast

theorem endsInToken_renderInt (v : Int) : EndsInToken (renderInt v) := by
  refine endsInToken_of_ne_nil ?_ (renderInt_chars v).2.2
  unfold renderInt
  split
  · simp
  · exact (renderNat_spec v.natAbs).2.1

theorem endsInToken_operandText (r : RawInstr) {m : Mnemonic} (hm : r.mnemonic = some m) :
    EndsInToken r.operandText := by
  cases r with
  | none | comment text => cases hm
  | add d n k | sub d n k => exact (endsInToken_regText k).append _
  | addi d n k | subi d n k => exact ((endsInToken_renderInt k).cons _).append _
  | ldur t n o | stur t n o =>
    have hbracket : EndsInToken [']'] := ⟨']', rfl, by decide⟩
    exact ((((hbracket.append _).cons _).append _).cons _).append _
  | b k => exact (endsInToken_renderInt k).cons _
  | cbz t k | cbnz t k => exact ((endsInToken_renderInt k).cons _).append _

/-- The canonical text of a record whose registers are in range parses to what the record's validation
gives (R80, R82). -/
theorem parse_line (r : RawInstr) {m : Mnemonic} (hm : r.mnemonic = some m)
    (hr : ∀ i ∈ r.regs, i ≤ 31) : parse (m.name ++ ' ' :: r.operandText) = commitLine r := by
  refine parse_record _ r (by simp) ?_ ?_ ?_ ?_
  · cases m <;> simp [Mnemonic.name, Config.isBlank]
  · obtain ⟨c, hlast, hc⟩ := ((endsInToken_operandText r hm).cons ' ').append m.name
    simpa [hlast] using hc
  · cases m <;> rfl
  · obtain ⟨hletters, hfold⟩ := name_chars m
    rw [fold_append, hfold, fold_cons, foldChar_punctuation.2.1,
      readInstruction_mnemonic _ m _ hletters (mnemonicOf_name m), readOperands_operandText r hm hr]

/-! Validation -/

theorem toNat_le (i : RegIdx) : i.toNat ≤ 31 := Nat.le_of_lt_succ i.isLt

/-- A decoded instruction's record is committed as the instruction (R80). -/
theorem commitLine_record (i : Instr) : commitLine (record i) = .ok i := by
  rw [commitLine, Laws.Validation.all i]

theorem mnemonic_of_immediate {r : RawInstr} {m : Mnemonic} {k : Int} (h : r.immediate = some (m, k)) :
    r.mnemonic = some m := by
  cases r <;> cases h <;> rfl

/-- The canonical line of a record with an immediate: the range of R58 decides (R80). -/
theorem parse_line_immediate (r : RawInstr) {m : Mnemonic} {k : Int} (hr : ∀ i ∈ r.regs, i ≤ 31)
    (hi : r.immediate = some (m, k)) : parse (m.name ++ ' ' :: r.operandText) =
      if m.range.1 ≤ k ∧ k < m.range.2 then .ok (narrow r) else .error (.rangeError m k) := by
  rw [parse_line r (mnemonic_of_immediate hi) hr, commitLine_immediate r m k hr hi]

/-- The validator finds no register index above 31 exactly where all are in range (R57). -/
theorem find?_above_eq_none (l : List Nat) :
    l.find? (fun i => decide (31 < i)) = none ↔ l.all (fun i => decide (i ≤ 31)) = true := by
  simp

/-- The validator commits well-formed records only (R57, R58). -/
theorem wellFormed_of_validate {r : RawInstr} {i : Instr} (h : validate r = .ok i) :
    r.wellFormed = true := by
  cases hfind : r.regs.find? (fun i => decide (31 < i)) with
  | some j => simp only [validate, hfind, reduceCtorEq] at h
  | none =>
    rw [RawInstr.wellFormed, (find?_above_eq_none _).1 hfind, Bool.true_and]
    cases hi : r.immediate with
    | none => rfl
    | some p =>
      by_contra hout
      simp only [validate, hfind, hi, if_neg hout, reduceCtorEq] at h

/-- With the registers in range, an immediate out of range is refused by name and value (R58, R80). -/
theorem validate_range {r : RawInstr} {m : Mnemonic} {k : Int}
    (hr : r.regs.all (fun i => decide (i ≤ 31)) = true) (hi : r.immediate = some (m, k))
    (hk : k < m.range.1 ∨ m.range.2 ≤ k) : validate r = .error (.range m k) := by
  have hout : ¬ m.inRange k = true := by
    rw [inRange_iff]
    omega
  unfold validate
  rw [(find?_above_eq_none _).2 hr, hi]
  exact if_neg hout

/-! Moves of the host -/

/-- A move that may fail leaves the state, or is answered done. -/
theorem settle_unchanged_or_done {ε : Type} (s : State) (report : ε → HostReply) (r : Except ε State) :
    (settle s report r).1 = s ∨ (settle s report r).2 = .done := by
  cases r with
  | ok t => exact .inr rfl
  | error e => exact .inl rfl

/-- Every move but a tick leaves the state, or is answered done. -/
theorem State.hostMove_unchanged_or_done (s : State) (m : HostMove) :
    (s.hostMove m).1 = s ∨ (s.hostMove m).2 = .done ∨ m = .tick := by
  cases m with
  | getReg | getPc | getMem | getUsed | contextRanges | reflect | saveSnapshot => exact .inl rfl
  | setPc => exact .inr (.inl rfl)
  | tick => exact .inr (.inr rfl)
  | setReg | setMem | appendLine | insertLine | removeLine | replaceLine | loadSnapshot =>
    exact (settle_unchanged_or_done ..).imp_right .inl

/-- A move that is answered neither done nor with a tick's outputs leaves the state. -/
theorem State.hostMove_unchanged {s : State} {m : HostMove} (hdone : (s.hostMove m).2 ≠ .done)
    (htick : ∀ a, (s.hostMove m).2 ≠ .ticked a) : (s.hostMove m).1 = s := by
  obtain hs | hd | rfl := s.hostMove_unchanged_or_done m
  · exact hs
  · exact absurd hd hdone
  · exact absurd rfl (htick _)

/-- A tick whose outputs say that it raised leaves the state (R91, R95). -/
theorem State.afterTick_of_execError {s : State} {a : Answer} {e : Fault} (h : s.transaction = some a)
    (he : a.outcome = .execError e) : s.afterTick = s := by
  obtain hnext | hsame := s.afterTick_cases
  · simp only [State.transaction, hnext] at h
    obtain ⟨eff, ht⟩ | ht := step_next s _ hnext <;> rw [ht] at h <;> cases h <;> cases he
  · exact hsame

end Sys2Proof.Machine
end

section
/-! The obligations on lines and on failing moves. -/

namespace Sys2Proof.Machine

/-- Settles O45: the text is the canonical line of the instruction's record, or a comment line. -/
theorem parseOfRenderIsTheInstruction : Obligations.ParseOfRenderIsTheInstruction := by
  intro i hwf
  match hm : (record i).mnemonic with
  | some m =>
    rw [render_eq_line i hm, parse_line _ hm (wellFormed_fields (record_wellFormed i)).1,
      commitLine_record]
  | none =>
    cases i <;> cases hm
    case none => exact parse_blank (by simp [render])
    case comment text => exact parse_comment (blanks := []) (by simp) hwf

/-- Settles O46: the validator against well-formedness, then the line of each opcode as the canonical line
of a record. -/
theorem validationChecksTheImmediateRange : Obligations.ValidationChecksTheImmediateRange := by
  refine ⟨fun r h => ⟨_, validate_wellFormed r h, record_narrow r h⟩, fun r i => wellFormed_of_validate,
    fun r m k => validate_range, fun d n k => ?_⟩
  have hlt : ∀ b : Int, k < b ↔ k ≤ b - 1 := fun b => Int.le_sub_one_iff.symm
  refine ⟨?_, ?_, ?_, ?_, ?_, ?_, ?_⟩
  · simpa [Mnemonic.name, RawInstr.operandText, commaBlank, narrow, Mnemonic.range, hlt]
      using parse_line_immediate (.addi d.toNat n.toNat k) (by simp [RawInstr.regs, toNat_le]) rfl
  · simpa [Mnemonic.name, RawInstr.operandText, commaBlank, narrow, Mnemonic.range, hlt]
      using parse_line_immediate (.subi d.toNat n.toNat k) (by simp [RawInstr.regs, toNat_le]) rfl
  · simpa [Mnemonic.name, RawInstr.operandText, commaBlank, narrow, Mnemonic.range, hlt]
      using parse_line_immediate (.ldur d.toNat n.toNat k) (by simp [RawInstr.regs, toNat_le]) rfl
  · simpa [Mnemonic.name, RawInstr.operandText, commaBlank, narrow, Mnemonic.range, hlt]
      using parse_line_immediate (.stur d.toNat n.toNat k) (by simp [RawInstr.regs, toNat_le]) rfl
  · simpa [Mnemonic.name, RawInstr.operandText, commaBlank, narrow, Mnemonic.range, hlt]
      using parse_line_immediate (.b k) (by simp [RawInstr.regs]) rfl
  · simpa [Mnemonic.name, RawInstr.operandText, commaBlank, narrow, Mnemonic.range, hlt]
      using parse_line_immediate (.cbz d.toNat k) (by simp [RawInstr.regs, toNat_le]) rfl
  · simpa [Mnemonic.name, RawInstr.operandText, commaBlank, narrow, Mnemonic.range, hlt]
      using parse_line_immediate (.cbnz d.toNat k) (by simp [RawInstr.regs, toNat_le]) rfl

/-- Settles O47: a line's parse depends on its trimmed text, and unless that is a comment, on its folding
only. -/
theorem parseIgnoresCaseAndSurroundingBlanks : Obligations.ParseIgnoresCaseAndSurroundingBlanks := by
  have hblank : ∀ c, Config.isBlank c = true ↔ c = ' ' ∨ c = '\t' := fun c => by
    simp [Config.isBlank]
  refine ⟨fun before line after hb ha => ?_, fun line₁ line₂ hcase hmarker => ?_⟩
  · exact parse_eq_of_trim_eq (trim_surrounded line (fun c hc => (hblank c).2 (hb c hc))
      (fun c hc => (hblank c).2 (ha c hc)))
  · refine parse_eq_of_fold_trim_eq ?_ (Bool.eq_false_iff.2 fun hprefix => ?_)
    · rw [← trim_fold, ← trim_fold, fold_eq_map_toLower, fold_eq_map_toLower, hcase]
    · obtain ⟨before, after, hb, hline⟩ := exists_eq_blanks_append_trim line₁
      obtain ⟨rest, hrest⟩ := List.isPrefixOf_iff_prefix.1 hprefix
      obtain ⟨c, hc, hne⟩ := hmarker before (rest ++ after) (by
        rw [hline, ← hrest]
        simp [Config.commentMarker])
      exact absurd ((hblank c).1 (hb c hc)) (not_or.2 hne)

/-- Settles O48: a blank line trims to nothing, a comment line to the marker and the rest. -/
theorem blankAndCommentLinesParse : Obligations.BlankAndCommentLinesParse :=
  ⟨fun _ h => parse_blank (List.all_eq_true.1 h),
    fun _ _ hb h => parse_comment (List.all_eq_true.1 hb) h⟩

/-- Settles O49: a move with an error reply is answered neither done nor with a tick's outputs, and a tick
that raises commits nothing. -/
theorem failedMovesChangeNothing : Obligations.FailedMovesChangeNothing := by
  refine ⟨fun s m => ⟨fun e h => ?_, fun e h => ?_, fun e h => ?_, fun a e h he => ?_⟩,
    fun s => ⟨rfl, rfl⟩, fun src maxIter e h => ?_⟩
  · exact State.hostMove_unchanged (by simp [h]) (by simp [h])
  · exact State.hostMove_unchanged (by simp [h]) (by simp [h])
  · exact State.hostMove_unchanged (by simp [h]) (by simp [h])
  · obtain hs | hd | rfl := s.hostMove_unchanged_or_done m
    · exact hs
    · rw [hd] at h
      cases h
    · exact State.afterTick_of_execError (HostReply.ticked.inj h) he
  · rw [batch, h]

end Sys2Proof.Machine
end

section
/-! SUPPORT. The tick from what it fetches, what it leaves and answers, and the request an instruction stages
against its footprint (40_execution_step.md R84 to R95, 45_reflection.md R116). -/

namespace Sys2Proof.Machine

/-! What is fetched -/

/-- No entry reads as the end of the program (R85). -/
theorem Entry.fetched_ne_outside (e : Entry) : e.fetched ≠ .outside := by
  cases e with
  | decoded i => simp [Entry.fetched]
  | word w => cases h : decode w <;> simp [Entry.fetched, h]

/-- The tick at or beyond PROG_LEN stops (R85). -/
theorem step_of_outside {s : State} (h : s.prog.length ≤ s.pc.toNat) : step s = .next s.stop := by
  simp only [step, s.fetch_outside h]

/-- The tick at an entry that reads as an instruction runs it (R87). -/
theorem step_of_entry {s : State} {e : Entry} {i : Instr} (hentry : s.prog[s.pc.toNat]? = some e)
    (h : e.fetched = .instr i) : step s = exec i s := by
  simp only [step, s.fetch_entry e hentry, h]

/-- A word that decodes reads as its instruction (R87). -/
theorem Entry.fetched_word {w : InstrWord} {i : Instr} (h : decode w = .ok i) :
    (Entry.word w).fetched = .instr i := by
  simp only [Entry.fetched, h]

theorem decode_of_decodeTableWord {nbits w : Nat} {i : Instr} (h : decodeTableWord nbits w = some i) :
    decode (tableWord nbits w) = .ok i := by
  unfold decodeTableWord at h
  split at h <;> cases h
  assumption

/-! The word placed at the fetch point -/

/-- The word placed stands where the next tick fetches, whether or not the program reached so far. -/
theorem State.withFetchWord_entry (s : State) (nbits w : Nat) :
    (s.withFetchWord nbits w).prog[s.pc.toNat]? = some (.word (tableWord nbits w)) := by
  unfold State.withFetchWord
  dsimp only
  split
  next h => exact List.getElem?_set_self h
  next h =>
    rw [List.getElem?_append_right (by simp; omega)]
    have hlast : s.pc.toNat - (s.prog.length + (s.pc.toNat - s.prog.length)) = 0 := by omega
    simp [hlast]

/-- Every other entry the program had stands as before. -/
theorem State.withFetchWord_other (s : State) (nbits w : Nat) {k : Nat} (hk : k ≠ s.pc.toNat)
    (hlen : k < s.prog.length) : (s.withFetchWord nbits w).prog[k]? = s.prog[k]? := by
  unfold State.withFetchWord
  dsimp only
  split
  next => exact List.getElem?_set_ne hk.symm
  next => rw [List.append_assoc, List.getElem?_append_left hlen]

/-! What a tick leaves and answers -/

/-- Every next state of a tick commits what the fetched instruction staged, or is the state stopped. -/
theorem step_next_staged {s t : State} (h : step s = .next t) :
    (∃ i e, s.fetch = .instr i ∧ staged i s = some (.ok e) ∧ t = s.commit e) ∨ t = s.stop := by
  obtain ⟨-, hs⟩ | ⟨w, -, hs⟩ | ⟨i, hfetch, hs⟩ := step_cases s <;> rw [hs] at h
  · cases h
    exact .inr rfl
  · cases h
  · exact (exec_next i s t h).imp_left fun ⟨e, he, ht⟩ => ⟨i, e, hfetch, he, ht⟩

/-- A tick raises AlignmentError or DecodeError only (R119, R121). -/
theorem step_fault {s : State} {f : Fault} (h : step s = .fault f) :
    (∃ a, f = .alignmentError a) ∨ (∃ w, f = .decodeError w) := by
  obtain ⟨-, hs⟩ | ⟨w, -, hs⟩ | ⟨i, -, hs⟩ := step_cases s <;> rw [hs] at h
  · cases h
  · cases h
    exact .inr ⟨w, rfl⟩
  · obtain ⟨e, he⟩ | ⟨he, -⟩ | ⟨rt, rn, off, -, -, he⟩ := exec_cases i s <;> rw [he] at h <;> cases h
    exact .inl ⟨_, rfl⟩

/-- The state stopped differs in the record of the outputs only, which no tick reads. -/
@[simp] theorem step_stop (s : State) : step s.stop = step s :=
  tickIgnoresTheRecordedAnswer s _

theorem State.afterTick_of_next {s t : State} (h : step s = .next t) : s.afterTick = t := by
  simp only [State.afterTick, h]

theorem State.transaction_of_next {s t : State} (h : step s = .next t) : s.transaction = t.answer := by
  simp only [State.transaction, h]

/-! The data request -/

/-- The memory word a data request touches, as `Footprint` shows it (R95, R116). `staged_footprint` ties it
to the model's footprint. -/
def DataRequest.footprint : DataRequest → Option (Slot × AccessKind)
  | .idle => none
  | .read slot => some (slot, .read)
  | .write slot _ => some (slot, .write)

/-- The request an instruction stages is the one its footprint names (R95, R116). -/
theorem staged_footprint {i : Instr} {s : State} {e : Effects} (h : staged i s = some (.ok e)) :
    footprint i s.regs = e.request.footprint := by
  cases i with
  | add | sub | addi | subi | b | cbz | cbnz => cases h; rfl
  | ldur rt rn off =>
    obtain ⟨ha, hslot⟩ | ⟨-, hslot⟩ := accessSlot_cases (s.effectiveAddress rn off) <;>
      rw [staged, hslot] at h <;> cases h
    exact footprintAt_aligned _ .read ha
  | stur rt rn off =>
    obtain ⟨ha, hslot⟩ | ⟨-, hslot⟩ := accessSlot_cases (s.effectiveAddress rn off) <;>
      rw [staged, hslot] at h <;> cases h
    exact footprintAt_aligned _ .write ha
  | none | comment => cases h

end Sys2Proof.Machine
end

section
/-! The obligations on the tick (40_execution_step.md). -/

namespace Sys2Proof.Machine

/-- Settles O15: a next state is a commit or the state stopped, and a fault is the fetch's or an access's. -/
theorem tickOutcomesAreExactlyThree : Obligations.TickOutcomesAreExactlyThree := by
  refine fun s => ⟨step_not_refused s, fun t h => ?_, fun f h => step_fault h⟩
  obtain ⟨e, rfl⟩ | rfl := step_next s t h
  · exact .inl (s.commit_lastOutcome e)
  · exact .inr s.stop_lastOutcome

/-- Settles O17: a tick that answers ShouldStop leaves the state stopped, and the tick from there is the same
tick; one that raises leaves the state. -/
theorem stoppedAndFailedStatesRepeat : Obligations.StoppedAndFailedStatesRepeat := by
  refine fun s => ⟨fun t hstep hstop => ?_, fun f hfault => ?_⟩
  · obtain ⟨e, rfl⟩ | rfl := step_next s t hstep
    · simp at hstop
    · exact ⟨s.stop_regs, s.stop_pc, s.stop_mem, s.stop_prog, (step_stop s).trans hstep⟩
  · have hsame := State.afterTick_of_fault hfault
    exact ⟨hsame, hsame.symm ▸ hfault⟩

/-- Settles O20: a commit answers with the request staged, which is the footprint's, and its write is what
memory then holds; a tick that stops or raises answers with none. -/
theorem tickDrivesThePortsOfItsFootprint : Obligations.TickDrivesThePortsOfItsFootprint := by
  intro s hwf
  cases hstep : step s with
  | next t =>
    obtain ⟨i, e, hfetch, he, rfl⟩ | rfl := step_next_staged hstep
    · refine ⟨_, State.transaction_of_next hstep, rfl, fun hrun => absurd rfl hrun, fun j hj _ => ?_⟩
      obtain rfl : i = j := Fetched.instr.inj (hfetch.symm.trans hj)
      rw [staged_footprint he, State.afterTick_of_next hstep, State.commit_mem]
      cases e.request with
      | idle => simp [DataRequest.footprint]
      | read slot => simp [DataRequest.footprint]
      | write slot v => simp [DataRequest.footprint, Memory.apply, Memory.get_set_same s.mem _ v hwf]
    · exact ⟨_, State.transaction_of_next hstep, rfl, fun _ => rfl, fun _ _ hrun => nomatch hrun⟩
  | fault f =>
    exact ⟨_, State.transaction_of_fault hstep, rfl, fun _ => rfl, fun _ _ hrun => nomatch hrun⟩
  | refused r => exact absurd hstep (step_not_refused s r)

/-- Settles O28: the entry fetched is the word placed, and it decodes. -/
theorem placedWordIsTheNextInstruction : Obligations.PlacedWordIsTheNextInstruction := by
  intro s nbits w i h
  have hfetched := Entry.fetched_word (decode_of_decodeTableWord h)
  exact ⟨step_of_entry (s.withFetchWord_entry nbits w) hfetched, rfl, rfl, rfl, rfl,
    fun k => s.withFetchWord_other nbits w⟩

/-- Settles O11: both markers give the state stopped. -/
theorem haltMarkersStopWithoutMutation : Obligations.HaltMarkersStopWithoutMutation :=
  fun _ s => ⟨s.stop, rfl, rfl, s.stop_lastOutcome, s.stop_regs, s.stop_pc, s.stop_mem, s.stop_prog⟩

/-- Settles O12: beyond the program the tick stops; below PROG_LEN fetch reads the entry. -/
theorem fetchBoundStopsElseFetchesEntry : Obligations.FetchBoundStopsElseFetchesEntry := by
  refine fun s => ⟨fun h => ?_, fun i h => step_of_entry h rfl, fun h => ?_⟩
  · exact ⟨s.stop, step_of_outside h, s.stop_lastOutcome, s.stop_regs, s.stop_pc, s.stop_mem,
      s.stop_prog⟩
  · have hfetch := s.fetch_entry _ (List.getElem?_eq_getElem h)
    exact ⟨hfetch, hfetch ▸ Entry.fetched_ne_outside _⟩

/-- Settles O13: both entries read as the instruction. -/
theorem stepRunsTheDecodedInstruction : Obligations.StepRunsTheDecodedInstruction :=
  fun _ _ => ⟨fun hentry => step_of_entry hentry rfl,
    fun _ hentry hdecode => step_of_entry hentry (Entry.fetched_word hdecode)⟩

end Sys2Proof.Machine
end

section
/-! SUPPORT. An instruction that stages one register write and goes on to the next slot: the value its
destination then reads, and all that stays (41_arithmetic.md R96 to R100). -/

namespace Sys2Proof.Machine

/-! What the four instructions compute -/

theorem exec_add (rd rn rm : RegIdx) (s : State) : exec (.add rd rn rm) s = .next (s.commit
    (.ofReg rd (u64 ((s.readReg rn).toNat + (s.readReg rm).toNat)))) := rfl

theorem exec_sub (rd rn rm : RegIdx) (s : State) : exec (.sub rd rn rm) s = .next (s.commit
    (.ofReg rd (u64 ((s.readReg rn).toNat - (s.readReg rm).toNat)))) := rfl

theorem exec_addi (rd rn : RegIdx) (imm : BitVec 12) (s : State) : exec (.addi rd rn imm) s =
    .next (s.commit (.ofReg rd (u64 ((s.readReg rn).toNat + imm.toNat)))) := rfl

theorem exec_subi (rd rn : RegIdx) (imm : BitVec 12) (s : State) : exec (.subi rd rn imm) s =
    .next (s.commit (.ofReg rd (u64 ((s.readReg rn).toNat - imm.toNat)))) := rfl

/-! The signed and the unsigned reading -/

/-- The two readings of a word are congruent mod 2^64 (R96). -/
theorem toInt_modEq_toNat (a : Word) : a.toInt ≡ a.toNat [ZMOD 2 ^ 64] := by
  rw [BitVec.toInt_eq_toNat_bmod]
  exact Int.bmod_emod

/-! The destination -/

/-- The destination reads the value narrowed, unless it is the zero register. -/
theorem State.readReg_commit_ofReg (s : State) {rd : RegIdx} (v : Int) (h : rd ≠ 31#5) :
    (s.commit (.ofReg rd (u64 v))).readReg rd = u64 v := by
  rw [s.readReg_commit_staged _ rd (u64 v) rfl, if_neg h]

/-- Read as unsigned, the destination holds the residue mod 2^64. -/
theorem State.commit_ofReg_toNat (s : State) {rd : RegIdx} (v : Int) (h : rd ≠ 31#5) :
    (((s.commit (.ofReg rd (u64 v))).readReg rd).toNat : Int) = v % 2 ^ 64 := by
  rw [s.readReg_commit_ofReg v h, u64_toNat]

/-- Read as signed, the destination is congruent to the value mod 2^64. -/
theorem State.commit_ofReg_toInt_modEq (s : State) {rd : RegIdx} (v : Int) (h : rd ≠ 31#5) :
    ((s.commit (.ofReg rd (u64 v))).readReg rd).toInt ≡ v [ZMOD 2 ^ 64] := by
  refine (toInt_modEq_toNat _).trans ?_
  rw [s.commit_ofReg_toNat v h]
  exact Int.mod_modEq v _

/-! The frame -/

/-- From `s` to `t` nothing changes but Rd, which no write reaches when it is the zero register, and the
pc, which goes on to the next slot; the tick answers `KeepRunning`. -/
def State.OnlyRegAndPc (s t : State) (rd : RegIdx) : Prop :=
  (rd = 31#5 → t.regs = s.regs) ∧ (∀ r, r ≠ rd → t.readReg r = s.readReg r) ∧
    t.pc.toNat = (s.pc.toNat + 1) % 2 ^ 64 ∧ (∀ a, memRead t.mem a = memRead s.mem a) ∧
    t.prog = s.prog ∧ t.lastOutcome = some .keepRunning

/-- The pc after an instruction of this shape, as a natural number (R89). -/
theorem State.commit_ofReg_pc_toNat (s : State) (rd : RegIdx) (v : Word) :
    (s.commit (.ofReg rd v)).pc.toNat = (s.pc.toNat + 1) % 2 ^ 64 := by
  have hpc : ((s.commit (.ofReg rd v)).pc.toNat : Int) = ((s.pc.toNat : Int) + 1) % 2 ^ 64 :=
    u64_toNat _
  omega

/-- Staging one register write leaves everything but that register and the pc. -/
theorem State.commit_ofReg_frame (s : State) (rd : RegIdx) (v : Word) :
    s.OnlyRegAndPc (s.commit (.ofReg rd v)) rd := by
  refine ⟨?_, fun r hr => ?_, s.commit_ofReg_pc_toNat rd v, fun _ => rfl, rfl, rfl⟩
  · rintro rfl
    exact s.regs.write_zero v
  · exact s.regs.read_write_other rd r v hr

end Sys2Proof.Machine
end

section
/-! The obligations of the arithmetic family (41_arithmetic.md). -/

namespace Sys2Proof.Machine

/-- Settles O1: the destination holds the residue of the sum, a natural number. -/
theorem addWritesWrappedSum : Obligations.AddWritesWrappedSum := by
  refine fun rd rn rm s => ⟨_, exec_add rd rn rm s, fun hrd => ?_, s.commit_ofReg_frame rd _⟩
  exact_mod_cast s.commit_ofReg_toNat ((s.readReg rn).toNat + (s.readReg rm).toNat) hrd

/-- Settles O2: the destination holds the residue of the difference. -/
theorem subWritesWrappedDifference : Obligations.SubWritesWrappedDifference :=
  fun rd rn rm s => ⟨_, exec_sub rd rn rm s, s.commit_ofReg_toNat _, s.commit_ofReg_frame rd _⟩

/-- Settles O3: the destination holds the residue of the sum, a natural number. -/
theorem addiWritesSumWithUnsignedImmediate : Obligations.AddiWritesSumWithUnsignedImmediate := by
  refine fun rd rn imm s => ⟨_, exec_addi rd rn imm s, fun hrd => ?_, s.commit_ofReg_frame rd _⟩
  exact_mod_cast s.commit_ofReg_toNat ((s.readReg rn).toNat + imm.toNat) hrd

/-- Settles O4: the destination holds the residue of the difference, and reading Rn as signed keeps that
residue. -/
theorem subiWritesDifferenceWithUnsignedImmediate :
    Obligations.SubiWritesDifferenceWithUnsignedImmediate := by
  refine fun rd rn imm s =>
    ⟨_, exec_subi rd rn imm s, fun hrd => ?_, s.commit_ofReg_frame rd _⟩
  have hvalue := s.commit_ofReg_toNat ((s.readReg rn).toNat - imm.toNat) hrd
  have hsigned := (toInt_modEq_toNat (s.readReg rn)).symm.sub_right imm.toNat
  rw [← sub_eq_add_neg]
  exact ⟨hvalue, hvalue.trans hsigned⟩

/-- Settles O34: the result is congruent to the exact sum or difference of the unsigned readings, and each
of these to the signed reading. -/
theorem signedAndUnsignedReadingsAgree : Obligations.SignedAndUnsignedReadingsAgree := by
  intro rd rn rm imm s hrd
  have hresult := fun v => s.commit_ofReg_toInt_modEq v hrd
  have hn := (toInt_modEq_toNat (s.readReg rn)).symm
  have hm := (toInt_modEq_toNat (s.readReg rm)).symm
  refine ⟨⟨_, exec_add rd rn rm s, ?_, hresult _⟩, ⟨_, exec_sub rd rn rm s, ?_, hresult _⟩,
    ⟨_, exec_addi rd rn imm s, ?_, hresult _⟩, ⟨_, exec_subi rd rn imm s, ?_, hresult _⟩⟩
  · exact (hresult _).trans (hn.add hm)
  · exact (hresult _).trans (hn.sub hm)
  · exact (hresult _).trans (hn.add_right _)
  · exact (hresult _).trans (hn.sub_right _)

end Sys2Proof.Machine
end

section
/-! SUPPORT. What a load and a store stage: the effective address as an integer, the word a load commits, the
frame of each, and the tick that raises (42_load_store.md R101 to R104). -/

namespace Sys2Proof.Machine

/-! The effective address -/

/-- The effective address is the residue of base plus offset, both exact integers (R101). -/
theorem State.effectiveAddress_toNat (s : State) (rn : RegIdx) (off : BitVec 9) :
    ((s.effectiveAddress rn off).toNat : Int) = ((s.readReg rn).toNat + off.toInt) % 2 ^ 64 :=
  u64_toNat _

/-! The commit of a load -/

/-- A load whose destination is not the zero register commits the word at its address (R103). -/
theorem State.memRead_eq_readReg_commit {s : State} {rt : RegIdx} {a : Word} (request : DataRequest)
    (delta : Int) (ha : a.toNat % 8 = 0) (hrt : rt ≠ 31#5) :
    memRead s.mem a =
      .ok ((s.commit ⟨some (rt, s.mem.get (slotOf a).toNat), request, delta⟩).readReg rt) := by
  rw [memRead_aligned s.mem a ha, State.readReg_commit_staged s _ rt _ rfl, if_neg hrt]

/-- A read request changes no memory, so a load has the frame of any write of one register. -/
theorem State.commit_read_frame (s : State) (rd : RegIdx) (v : Word) (slot : Slot) :
    s.OnlyRegAndPc (s.commit ⟨some (rd, v), .read slot, 1⟩) rd :=
  s.commit_ofReg_frame rd v

/-! The commit of a store -/

/-- A commit that goes on to the next slot, whatever else it stages (R89). -/
theorem State.commit_pc_toNat_of_delta (s : State) {e : Effects} (h : e.delta = 1) :
    (s.commit e).pc.toNat = (s.pc.toNat + 1) % 2 ^ 64 := by
  have hpc : (s.commit e).pc = (s.commit (.ofReg 31#5 0#64)).pc := by simp [h, Effects.ofReg]
  rw [hpc, s.commit_ofReg_pc_toNat]

/-- The word just stored is read back (R104). -/
theorem memRead_set_same (m : Memory) (a v : Word) (h : m.wf = true) (ha : a.toNat % 8 = 0) :
    memRead (m.set (slotOf a).toNat v) a = .ok v := by
  rw [memRead_aligned _ a ha, Memory.get_set_same m _ v h]

/-! The tick that raises -/

/-- A tick whose instruction raises leaves the state as it was (R91). -/
theorem State.afterTick_of_exec_fault {s : State} {i : Instr} {f : Fault} (h : exec i s = .fault f)
    (hfetch : s.fetch = .instr i) : s.afterTick = s := by
  have hstep : step s = exec i s := by simp only [step, hfetch]
  exact State.afterTick_of_fault (hstep.trans h)

end Sys2Proof.Machine
end

section
/-! The obligations of the load and store family (42_load_store.md). -/

namespace Sys2Proof.Machine

/-- Settles O5: a store stages no register write, and a load only one of its destination. -/
theorem effectiveAddressWrapsWithoutWriteback :
    Obligations.EffectiveAddressWrapsWithoutWriteback := by
  refine fun rt rn off s => ⟨s.effectiveAddress_toNat rn off, fun t ht => ?_, fun t ht hne => ?_⟩
  · obtain ⟨-, hexec⟩ | ⟨-, hexec⟩ := exec_stur_cases rt rn off s <;> rw [hexec] at ht <;> cases ht
    exact s.readReg_commit_other _ rn fun v => nofun
  · obtain ⟨-, hexec⟩ | ⟨-, hexec⟩ := exec_ldur_cases rt rn off s <;> rw [hexec] at ht <;> cases ht
    exact s.readReg_commit_other _ rn fun v hreg => hne (by cases hreg; rfl)

/-- Settles O6: an aligned load commits the word at its address and has the frame of a register write; a
misaligned one raises. -/
theorem ldurLoadsAlignedWordElseRaises : Obligations.LdurLoadsAlignedWordElseRaises := by
  refine fun rt rn off s => ⟨fun ha => ?_, fun ha => ?_⟩
  · exact ⟨_, execLdur_aligned rt rn off s ha, State.memRead_eq_readReg_commit _ _ ha,
      s.commit_read_frame rt _ _⟩
  · have hexec : exec (.ldur rt rn off) s = _ := execLdur_misaligned rt rn off s ha
    exact ⟨hexec, State.afterTick_of_exec_fault hexec⟩

/-- Settles O7: an aligned store commits one write, of the slot of its address; a misaligned one raises. -/
theorem sturStoresAlignedWordElseRaises : Obligations.SturStoresAlignedWordElseRaises := by
  refine fun rt rn off s hwf => ⟨fun ha => ?_, fun ha => ?_⟩
  · exact ⟨_, execStur_aligned rt rn off s ha, memRead_set_same s.mem _ _ hwf ha,
      fun a hne => memRead_set_other s.mem _ a _ hwf ha hne, rfl, s.commit_pc_toNat_of_delta rfl, rfl,
      s.commit_lastOutcome _⟩
  · have hexec : exec (.stur rt rn off) s = _ := execStur_misaligned rt rn off s ha
    exact ⟨hexec, State.afterTick_of_exec_fault hexec⟩

end Sys2Proof.Machine
end

section
/-! SUPPORT. An instruction that stages a pc delta and nothing else: the delta each branch chooses, where it
takes the pc, and the frame (43_branch.md R105 to R110). -/

namespace Sys2Proof.Machine

/-! The zero test -/

/-- The zero register reads 0, as a natural number (R22). -/
theorem State.readReg_toNat_of_eq_zero_register (s : State) {rt : RegIdx} (h : rt = 31#5) :
    (s.readReg rt).toNat = 0 := by
  rw [h, s.readReg_zero, BitVec.toNat_zero]

/-- The zero condition is that the register, as a natural number, is 0 (R106). -/
theorem State.zeroCondition_iff (s : State) (rt : RegIdx) :
    s.zeroCondition rt = true ↔ (s.readReg rt).toNat = 0 := by
  rw [State.zeroCondition, beq_iff_eq, ← BitVec.toNat_inj, BitVec.toNat_zero]

/-- The two conditions are each other's negation (R106). -/
theorem State.nonZeroCondition_eq_not (s : State) (rt : RegIdx) :
    s.nonZeroCondition rt = !s.zeroCondition rt := rfl

/-! The delta of each branch -/

theorem exec_b (imm : BitVec 26) (s : State) :
    exec (.b imm) s = .next (s.commit (.ofDelta imm.toInt)) := rfl

/-- CBZ goes by its offset when its register is 0, else by 1 (R108). -/
theorem exec_cbz (rt : RegIdx) (imm : BitVec 19) (s : State) : exec (.cbz rt imm) s =
    .next (s.commit (.ofDelta (if (s.readReg rt).toNat = 0 then imm.toInt else 1))) := by
  simp only [exec, execCbz, branchDelta, s.zeroCondition_iff, State.complete_ok, sext]

/-- CBNZ goes by 1 when its register is 0, else by its offset (R109). -/
theorem exec_cbnz (rt : RegIdx) (imm : BitVec 19) (s : State) : exec (.cbnz rt imm) s =
    .next (s.commit (.ofDelta (if (s.readReg rt).toNat = 0 then 1 else imm.toInt))) := by
  simp only [exec, execCbnz, branchDelta, s.nonZeroCondition_eq_not, Bool.not_eq_true',
    ← Bool.not_eq_true, ite_not, s.zeroCondition_iff, State.complete_ok, sext]

/-! The pc and the frame -/

/-- The pc goes by the delta staged, mod 2^64 (R89). -/
theorem State.commit_pc_toNat_eq_emod (s : State) {e : Effects} {k : Int} (h : e.delta = k) :
    ((s.commit e).pc.toNat : Int) = (s.pc.toNat + k) % 2 ^ 64 := by
  rw [State.commit_pc, u64_toNat, h, uval]

/-- From `s` to `t` nothing changes but the pc; the tick answers `KeepRunning`. -/
def State.OnlyPc (s t : State) : Prop :=
  t.regs = s.regs ∧ (∀ a, memRead t.mem a = memRead s.mem a) ∧ t.prog = s.prog ∧
    t.lastOutcome = some .keepRunning

/-- Staging a pc delta leaves everything but the pc (R105, R110). -/
theorem State.commit_ofDelta_frame (s : State) (k : Int) : s.OnlyPc (s.commit (.ofDelta k)) :=
  ⟨rfl, fun _ => rfl, s.commit_prog _, s.commit_lastOutcome _⟩

end Sys2Proof.Machine
end

section
/-! The obligations of the branch family (43_branch.md). -/

namespace Sys2Proof.Machine

/-- Settles O9: the delta is the offset exactly when the register is 0, which the zero register is. -/
theorem cbzBranchesExactlyOnZero : Obligations.CbzBranchesExactlyOnZero := by
  refine fun rt imm s => ⟨_, exec_cbz rt imm s, fun hz => ?_, fun hnz => ?_, fun hxzr => ?_,
    s.commit_ofDelta_frame _⟩
  · exact s.commit_pc_toNat_eq_emod (if_pos hz)
  · exact s.commit_pc_toNat_of_delta (if_neg hnz)
  · exact s.commit_pc_toNat_eq_emod (if_pos (s.readReg_toNat_of_eq_zero_register hxzr))

/-- Settles O10: the delta is 1 exactly when the register is 0, which the zero register is. -/
theorem cbnzBranchesExactlyOnNonZero : Obligations.CbnzBranchesExactlyOnNonZero := by
  refine fun rt imm s => ⟨_, exec_cbnz rt imm s, fun hnz => ?_, fun hz => ?_, fun hxzr => ?_,
    s.commit_ofDelta_frame _⟩
  · exact s.commit_pc_toNat_eq_emod (if_neg hnz)
  · exact s.commit_pc_toNat_of_delta (if_pos hz)
  · exact s.commit_pc_toNat_of_delta (if_pos (s.readReg_toNat_of_eq_zero_register hxzr))

/-- Settles O8: the delta is the offset, from every state. -/
theorem branchMovesPcByItsOffset : Obligations.BranchMovesPcByItsOffset :=
  fun imm s => ⟨_, exec_b imm s, s.commit_pc_toNat_eq_emod rfl, s.commit_ofDelta_frame _⟩

end Sys2Proof.Machine
end

section
/-! SUPPORT. The decoder's outputs against what the instruction stages and where it ends: the footprint of an
access, the instructions that have a target, and what each kind of evaluated effect says of the staging
(45_reflection.md R114 to R118). -/

namespace Sys2Proof.Machine

/-! The footprint -/

theorem footprint_ldur (rt rn : RegIdx) (off : BitVec 9) (s : State) :
    footprint (.ldur rt rn off) s.regs = footprintAt (s.effectiveAddress rn off) .read := rfl

theorem footprint_stur (rt rn : RegIdx) (off : BitVec 9) (s : State) :
    footprint (.stur rt rn off) s.regs = footprintAt (s.effectiveAddress rn off) .write := rfl

/-- No slot is touched exactly at a misaligned address (R116). -/
theorem footprintAt_eq_none_iff (a : Word) (k : AccessKind) :
    footprintAt a k = none ↔ a.toNat % 8 ≠ 0 := by
  refine ⟨fun hnone haligned => ?_, footprintAt_misaligned a k⟩
  rw [footprintAt_aligned a k haligned] at hnone
  cases hnone

/-- The slot touched is the address shifted right by 3, and the kind is the one asked for (R116). -/
theorem footprintAt_eq_some {a : Word} {k k' : AccessKind} {slot : Slot}
    (h : footprintAt a k = some (slot, k')) : slot.toNat = a.toNat / 8 ∧ k' = k := by
  by_cases ha : a.toNat % 8 = 0
  · rw [footprintAt_aligned a k ha] at h
    cases h
    exact ⟨slotOf_toNat a, rfl⟩
  · rw [footprintAt_misaligned a k ha] at h
    cases h

/-- LDUR raises exactly at a misaligned effective address (R102, R103). -/
theorem exec_ldur_raises_iff (rt rn : RegIdx) (off : BitVec 9) (s : State) :
    exec (.ldur rt rn off) s = .fault (.alignmentError (s.effectiveAddress rn off)) ↔
      (s.effectiveAddress rn off).toNat % 8 ≠ 0 := by
  obtain ⟨ha, hexec⟩ | ⟨ha, hexec⟩ := exec_ldur_cases rt rn off s <;> simp [hexec, ha]

/-- STUR raises exactly at a misaligned effective address (R102, R104). -/
theorem exec_stur_raises_iff (rt rn : RegIdx) (off : BitVec 9) (s : State) :
    exec (.stur rt rn off) s = .fault (.alignmentError (s.effectiveAddress rn off)) ↔
      (s.effectiveAddress rn off).toNat % 8 ≠ 0 := by
  obtain ⟨ha, hexec⟩ | ⟨ha, hexec⟩ := exec_stur_cases rt rn off s <;> simp [hexec, ha]

/-- A data request changes what a slot reads only where it is a write of that slot (R43, R116). -/
theorem Memory.footprint_of_get_apply_ne {m : Memory} {r : DataRequest} {k : Nat} (h : m.wf = true)
    (hchanged : (m.apply r).get k ≠ m.get k) :
    ∃ slot, r.footprint = some (slot, .write) ∧ k = slot.toNat := by
  cases r with
  | idle | read => exact absurd rfl hchanged
  | write slot v =>
    refine ⟨slot, rfl, by_contra fun hk => hchanged ?_⟩
    rw [Memory.apply, Memory.get_set m _ k v h, if_neg hk]

/-! The target -/

/-- The instructions without a target are those that are no branch (R117). -/
theorem target_eq_none_iff (i : Instr) (pc : Word) : target i pc = none ↔
    (∀ imm, i ≠ .b imm) ∧ (∀ rt imm, i ≠ .cbz rt imm) ∧ (∀ rt imm, i ≠ .cbnz rt imm) := by
  cases i with
  | b imm => exact ⟨nofun, fun ⟨hb, _, _⟩ => absurd rfl (hb imm)⟩
  | cbz rt imm => exact ⟨nofun, fun ⟨_, hcbz, _⟩ => absurd rfl (hcbz rt imm)⟩
  | cbnz rt imm => exact ⟨nofun, fun ⟨_, _, hcbnz⟩ => absurd rfl (hcbnz rt imm)⟩
  | _ => exact ⟨fun _ => ⟨nofun, nofun, nofun⟩, fun _ => rfl⟩

/-! The evaluated effect -/

theorem evaluatedEffect_ldur_aligned (rt rn : RegIdx) (off : BitVec 9) (s : State)
    (h : (s.effectiveAddress rn off).toNat % 8 = 0) :
    evaluatedEffect (.ldur rt rn off) s.regs s.mem =
      .setsReg rt (s.mem.get (slotOf (s.effectiveAddress rn off)).toNat) := by
  rw [evaluatedEffect, footprintAt_aligned (effectiveAddressOf (s.regs.read rn) off) .read h]
  rfl

theorem evaluatedEffect_ldur_misaligned (rt rn : RegIdx) (off : BitVec 9) (s : State)
    (h : (s.effectiveAddress rn off).toNat % 8 ≠ 0) :
    evaluatedEffect (.ldur rt rn off) s.regs s.mem = .misaligned (s.effectiveAddress rn off) := by
  rw [evaluatedEffect, footprintAt_misaligned (effectiveAddressOf (s.regs.read rn) off) .read h]
  rfl

theorem evaluatedEffect_stur_aligned (rt rn : RegIdx) (off : BitVec 9) (s : State)
    (h : (s.effectiveAddress rn off).toNat % 8 = 0) :
    evaluatedEffect (.stur rt rn off) s.regs s.mem =
      .storesWord (slotOf (s.effectiveAddress rn off)) (s.readReg rt) := by
  rw [evaluatedEffect, footprintAt_aligned (effectiveAddressOf (s.regs.read rn) off) .write h]
  rfl

theorem evaluatedEffect_stur_misaligned (rt rn : RegIdx) (off : BitVec 9) (s : State)
    (h : (s.effectiveAddress rn off).toNat % 8 ≠ 0) :
    evaluatedEffect (.stur rt rn off) s.regs s.mem = .misaligned (s.effectiveAddress rn off) := by
  rw [evaluatedEffect, footprintAt_misaligned (effectiveAddressOf (s.regs.read rn) off) .write h]
  rfl

/-- What an effect says of an instruction's staging: the staged register write, the staged memory write, the
staged pc delta and its choice between 1 and the way to the target, the error raised, or that nothing is
staged. `evaluatedEffect_fits` ties it to the evaluated effect. -/
def EvaluatedEffect.Fits (i : Instr) (s : State) : EvaluatedEffect → Prop
  | .setsReg rd v => ∃ e, staged i s = some (.ok e) ∧ e.reg = some (rd, v)
  | .storesWord slot v => ∃ e, staged i s = some (.ok e) ∧ e.request = .write slot v
  | .branches taken delta => ∃ e k, staged i s = some (.ok e) ∧ e.delta = delta ∧
      target i s.pc = some (branchTarget s.pc k) ∧ delta = branchDelta taken k
  | .misaligned a => staged i s = some (.error (.alignmentError a))
  | .stops => staged i s = none

/-- The evaluated effect shows what the instruction stages (R118). -/
theorem evaluatedEffect_fits (i : Instr) (s : State) : (evaluatedEffect i s.regs s.mem).Fits i s := by
  cases i with
  | add | sub | addi | subi => exact ⟨_, rfl, rfl⟩
  | b | cbz | cbnz => exact ⟨_, _, rfl, rfl, rfl, rfl⟩
  | none | comment => rfl
  | ldur rt rn off =>
    obtain ⟨ha, hslot⟩ | ⟨ha, hslot⟩ := accessSlot_cases (s.effectiveAddress rn off)
    · rw [evaluatedEffect_ldur_aligned rt rn off s ha]
      exact ⟨_, by rw [staged, hslot, Except.map], rfl⟩
    · rw [evaluatedEffect_ldur_misaligned rt rn off s ha, EvaluatedEffect.Fits, staged, hslot, Except.map]
  | stur rt rn off =>
    obtain ⟨ha, hslot⟩ | ⟨ha, hslot⟩ := accessSlot_cases (s.effectiveAddress rn off)
    · rw [evaluatedEffect_stur_aligned rt rn off s ha]
      exact ⟨_, by rw [staged, hslot, Except.map], rfl⟩
    · rw [evaluatedEffect_stur_misaligned rt rn off s ha, EvaluatedEffect.Fits, staged, hslot, Except.map]

/-- An instruction that stages effects completes with their commit (R90). -/
theorem exec_of_staged_ok {i : Instr} {s : State} {e : Effects} (h : staged i s = some (.ok e)) :
    exec i s = .next (s.commit e) := by
  rw [exec_eq_finish, h, State.finish_some_ok]

/-- The halt markers are the instructions that stage nothing (R86). -/
theorem halt_marker_of_staged_none {i : Instr} {s : State} (h : staged i s = none) :
    i = .none ∨ ∃ text, i = .comment text := by
  cases i with
  | none => exact .inl rfl
  | comment text => exact .inr ⟨text, rfl⟩
  | _ => cases h

/-- A register's value is shown only for the destination, which gets it unless it is the zero register. -/
theorem exec_of_setsReg {i : Instr} {s : State} {rd : RegIdx} {v : Word}
    (h : evaluatedEffect i s.regs s.mem = .setsReg rd v) :
    (rd, Role.dest) ∈ operands i ∧ ∃ t, exec i s = .next t ∧ (rd ≠ 31#5 → t.readReg rd = v) := by
  obtain ⟨e, he, hreg⟩ : EvaluatedEffect.Fits i s (.setsReg rd v) := h ▸ evaluatedEffect_fits i s
  refine ⟨(dest_iff_staged_reg i s e he rd).2 ⟨v, hreg⟩, _, exec_of_staged_ok he, fun hrd => ?_⟩
  rw [s.readReg_commit_staged e rd v hreg, if_neg hrd]

/-- A destination other than the zero register gets the value shown. -/
theorem readReg_of_setsReg {i : Instr} {s : State} {rd : RegIdx} {v : Word} (hrd : rd ≠ 31#5)
    (h : evaluatedEffect i s.regs s.mem = .setsReg rd v) :
    ∃ t, exec i s = .next t ∧ t.readReg rd = v := by
  obtain ⟨-, t, hexec, hvalue⟩ := exec_of_setsReg h
  exact ⟨t, hexec, hvalue hrd⟩

/-- A stored word is shown only at the slot of a Write footprint, which holds it after. -/
theorem exec_of_storesWord {i : Instr} {s : State} {slot : Slot} {v : Word} (hwf : s.wf = true)
    (h : evaluatedEffect i s.regs s.mem = .storesWord slot v) :
    footprint i s.regs = some (slot, .write) ∧
      ∃ t, exec i s = .next t ∧ t.mem.get slot.toNat = v := by
  obtain ⟨e, he, hrequest⟩ : EvaluatedEffect.Fits i s (.storesWord slot v) :=
    h ▸ evaluatedEffect_fits i s
  refine ⟨?_, _, exec_of_staged_ok he, ?_⟩
  · rw [staged_footprint he, hrequest, DataRequest.footprint]
  · rw [State.commit_mem, hrequest, Memory.apply, Memory.get_set_same s.mem _ v hwf]

/-- A branch is shown with the delta the pc moves by: to the target when taken, else by 1. -/
theorem exec_of_branches {i : Instr} {s : State} {taken : Bool} {delta : Int}
    (h : evaluatedEffect i s.regs s.mem = .branches taken delta) :
    (target i s.pc).isSome = true ∧ ∃ t, exec i s = .next t ∧
      ((t.pc.toNat : Int) = (s.pc.toNat + delta) % 2 ^ 64) ∧
      (taken = true → target i s.pc = some t.pc) ∧ (taken = false → delta = 1) := by
  obtain ⟨e, k, he, hdelta, htarget, hchoice⟩ : EvaluatedEffect.Fits i s (.branches taken delta) :=
    h ▸ evaluatedEffect_fits i s
  refine ⟨by rw [htarget, Option.isSome_some], _, exec_of_staged_ok he,
    s.commit_pc_toNat_eq_emod hdelta, ?_, ?_⟩
  · rintro rfl
    have hk : e.delta = k := hdelta.trans hchoice
    rw [htarget, State.commit_pc, hk, branchTarget]
  · rintro rfl
    exact hchoice

/-- A misaligned address is shown only by an instruction that raises. -/
theorem exec_of_misaligned {i : Instr} {s : State} {a : Word}
    (h : evaluatedEffect i s.regs s.mem = .misaligned a) : exec i s = .fault (.alignmentError a) := by
  have hstaged : EvaluatedEffect.Fits i s (.misaligned a) := h ▸ evaluatedEffect_fits i s
  rw [EvaluatedEffect.Fits] at hstaged
  rw [exec_eq_finish, hstaged, State.finish_some_error]

/-- A stop is shown only by a halt marker, whose tick answers ShouldStop. -/
theorem exec_of_stops {i : Instr} {s : State} (h : evaluatedEffect i s.regs s.mem = .stops) :
    (i = .none ∨ ∃ text, i = .comment text) ∧
      ∃ t, exec i s = .next t ∧ t.lastOutcome = some .shouldStop := by
  have hstaged : EvaluatedEffect.Fits i s .stops := h ▸ evaluatedEffect_fits i s
  rw [EvaluatedEffect.Fits] at hstaged
  refine ⟨halt_marker_of_staged_none hstaged, s.stop, ?_, s.stop_lastOutcome⟩
  rw [exec_eq_finish, hstaged, State.finish_none]

/-- An instruction that raises shows a misaligned address. -/
theorem evaluatedEffect_of_fault {i : Instr} {s : State} {f : Fault} (h : exec i s = .fault f) :
    ∃ a, evaluatedEffect i s.regs s.mem = .misaligned a := by
  obtain ⟨e, he⟩ | ⟨he, -⟩ | ⟨rt, rn, off, rfl | rfl, ha, -⟩ := exec_cases i s
  · rw [he] at h
    cases h
  · rw [he] at h
    cases h
  · exact ⟨_, evaluatedEffect_ldur_misaligned rt rn off s ha⟩
  · exact ⟨_, evaluatedEffect_stur_misaligned rt rn off s ha⟩

/-- An instruction that has a target shows a branch. -/
theorem evaluatedEffect_of_target {i : Instr} {s : State} (h : (target i s.pc).isSome = true) :
    ∃ taken delta, evaluatedEffect i s.regs s.mem = .branches taken delta := by
  cases i with
  | b | cbz | cbnz => exact ⟨_, _, rfl⟩
  | _ => cases h

/-- The value a load into the zero register shows is the one a load into any register shows (C2). -/
theorem evaluatedEffect_ldur_of_zero_register (rt rn : RegIdx) (off : BitVec 9) {s : State} {v : Word}
    (h : evaluatedEffect (.ldur 31#5 rn off) s.regs s.mem = .setsReg 31#5 v) :
    evaluatedEffect (.ldur rt rn off) s.regs s.mem = .setsReg rt v := by
  by_cases ha : (s.effectiveAddress rn off).toNat % 8 = 0
  · rw [evaluatedEffect_ldur_aligned _ rn off s ha] at h ⊢
    cases h
    rfl
  · rw [evaluatedEffect_ldur_misaligned _ rn off s ha] at h
    cases h

end Sys2Proof.Machine
end

section
/-! The obligations of the reflection family (45_reflection.md). -/

namespace Sys2Proof.Machine

/-- Settles O42: both the footprint and the outcome turn on the alignment of the effective address, and the
request a commit applies is the footprint's. -/
theorem footprintIsExact : Obligations.FootprintIsExact := by
  refine ⟨fun rt rn off s => ⟨?_, ?_, fun slot k h => ?_, fun slot k h => ?_⟩,
    fun i regs hldur hstur => ?_, fun i s t k hwf hexec hchanged => ?_⟩
  · rw [footprint_ldur, footprintAt_eq_none_iff, exec_ldur_raises_iff]
  · rw [footprint_stur, footprintAt_eq_none_iff, exec_stur_raises_iff]
  · exact footprintAt_eq_some (footprint_ldur rt rn off s ▸ h)
  · exact footprintAt_eq_some (footprint_stur rt rn off s ▸ h)
  · cases i with
    | ldur rt rn off => exact absurd rfl (hldur rt rn off)
    | stur rt rn off => exact absurd rfl (hstur rt rn off)
    | _ => rfl
  · obtain ⟨e, he, rfl⟩ | rfl := exec_next i s t hexec
    · rw [staged_footprint he]
      exact Memory.footprint_of_get_apply_ne hwf hchanged
    · exact absurd rfl hchanged

/-- Settles O44: each kind of effect says what is staged, which is what the commit does; and the value shown
does not depend on which register is the destination. -/
theorem evaluatedEffectMatchesExecution : Obligations.EvaluatedEffectMatchesExecution := by
  refine ⟨fun i s hwf => ⟨?_, fun f => evaluatedEffect_of_fault, ?_, evaluatedEffect_of_target⟩,
    fun rd rn rm imm off s v hrd => ?_⟩
  · cases heffect : evaluatedEffect i s.regs s.mem with
    | setsReg rd v => exact exec_of_setsReg heffect
    | storesWord slot v => exact exec_of_storesWord hwf heffect
    | branches taken delta => exact exec_of_branches heffect
    | misaligned a => exact exec_of_misaligned heffect
    | stops => exact exec_of_stops heffect
  · rintro (rfl | ⟨text, rfl⟩) <;> rfl
  · refine ⟨fun h => readReg_of_setsReg hrd ?_, fun h => readReg_of_setsReg hrd ?_,
      fun h => readReg_of_setsReg hrd ?_, fun h => readReg_of_setsReg hrd ?_,
      fun h => readReg_of_setsReg hrd (evaluatedEffect_ldur_of_zero_register rd rn off h)⟩ <;>
    · cases h
      rfl

/-- Settles O43: the delta of a taken branch is its offset, the one its target is reached by. -/
theorem targetIsWhereTheBranchGoes : Obligations.TargetIsWhereTheBranchGoes := by
  refine ⟨fun imm s t hexec => ?_, fun rt imm s t hz hexec => ?_, fun rt imm s t hnz hexec => ?_,
    target_eq_none_iff⟩
  · cases hexec
    rfl
  · have hz' : (s.readReg rt).toNat = 0 := by rw [hz, BitVec.toNat_zero]
    rw [exec_cbz, if_pos hz'] at hexec
    cases hexec
    rfl
  · have hnz' : (s.readReg rt).toNat ≠ 0 := fun h => hnz (BitVec.eq_of_toNat_eq h)
    rw [exec_cbnz, if_neg hnz'] at hexec
    cases hexec
    rfl

end Sys2Proof.Machine
end

section
/-! SUPPORT. Where an error comes from and where it shows: the accesses and instructions that raise, the
outcome on the ports of a tick, and what holds along a run (60_exceptions.md R119 to R124). -/

namespace Sys2Proof.Machine

/-! The accesses that fail -/

/-- A read fails exactly at a misaligned address (R42, R120). -/
theorem memRead_eq_error_iff (m : Memory) (a : Word) (f : Fault) :
    memRead m a = .error f ↔ f = .alignmentError a ∧ a.toNat % 8 ≠ 0 := by
  by_cases ha : a.toNat % 8 = 0
  · simp [memRead_aligned m a ha, ha]
  · simp [memRead_misaligned m a ha, ha, eq_comm]

/-- A write fails exactly at a misaligned address (R43, R120). -/
theorem memWrite_eq_error_iff (m : Memory) (a v : Word) (f : Fault) :
    memWrite m a v = .error f ↔ f = .alignmentError a ∧ a.toNat % 8 ≠ 0 := by
  by_cases ha : a.toNat % 8 = 0
  · simp [memWrite_aligned m a v ha, ha]
  · simp [memWrite_misaligned m a v ha, ha, eq_comm]

/-- The host's memory write fails exactly when the write it makes does (R43). -/
theorem State.hostSetMem_eq_error_iff (s : State) (a v : Word) (f : Fault) :
    s.hostSetMem a v = .error f ↔ memWrite s.mem a v = .error f := by
  unfold State.hostSetMem
  cases memWrite s.mem a v <;> simp

/-! The instructions that fail -/

/-- An instruction raises exactly when it is a load or store at a misaligned effective address (R119,
R120). -/
theorem exec_eq_fault_iff (i : Instr) (s : State) (f : Fault) : exec i s = .fault f ↔
    ∃ rt rn off, (i = .ldur rt rn off ∨ i = .stur rt rn off) ∧
      f = .alignmentError (s.effectiveAddress rn off) ∧ (s.effectiveAddress rn off).toNat % 8 ≠ 0 := by
  constructor
  · intro h
    obtain ⟨e, he⟩ | ⟨he, -⟩ | ⟨rt, rn, off, hi, ha, he⟩ := exec_cases i s <;> rw [he] at h <;> cases h
    exact ⟨rt, rn, off, hi, rfl, ha⟩
  · rintro ⟨rt, rn, off, rfl | rfl, rfl, ha⟩
    · exact (exec_ldur_raises_iff rt rn off s).2 ha
    · exact (exec_stur_raises_iff rt rn off s).2 ha

/-! The outcome on the ports -/

/-- The outcome on the ports of a tick that completes or stops is the one its next state records (R95). -/
theorem State.transaction_outcome_of_next {s t : State} {a : Answer} (ha : s.transaction = some a)
    (h : step s = .next t) : t.lastOutcome = some a.outcome := by
  rw [State.lastOutcome, ← State.transaction_of_next h, ha, Option.map_some]

/-- The outcome on the ports of a tick that raises is its error (R95). -/
theorem State.transaction_outcome_of_fault {s : State} {a : Answer} {f : Fault}
    (ha : s.transaction = some a) (h : step s = .fault f) : a.outcome = .execError f := by
  rw [State.transaction_of_fault h] at ha
  cases ha
  rfl

/-! Along a run -/

/-- What every tick keeps holds at the end of every run from a state where it holds. -/
theorem Runs.preserves {P : State → Prop} (hstep : ∀ s t, P s → step s = .next t → P t)
    {n : Nat} {s t : State} (hrun : Runs n s t) (hs : P s) : P t := by
  induction hrun with
  | refl s => exact hs
  | tick h _ _ ih => exact ih (hstep _ _ hs h)

/-- A run leaves the program as it was (R34). -/
theorem Runs.prog_eq {n : Nat} {s t : State} (hrun : Runs n s t) : t.prog = s.prog :=
  hrun.preserves (P := fun u => u.prog = s.prog)
    (fun u v hu hnext => (programStoreIsNeverWritten u v hnext).trans hu) rfl

/-- An entry that fetches as an instruction other than LDUR and STUR; `step_ne_fault` says that a tick at
such entries does not raise. -/
def Entry.NeverRaises (e : Entry) : Prop :=
  ∃ i, e.fetched = .instr i ∧ (∀ rt rn off, i ≠ .ldur rt rn off) ∧ (∀ rt rn off, i ≠ .stur rt rn off)

/-- A tick of a program without loads, stores and illegal words does not raise, wherever the pc stands. -/
theorem step_ne_fault {s : State} (h : ∀ e ∈ s.prog, e.NeverRaises) (f : Fault) :
    step s ≠ .fault f := by
  obtain hin | hout := lt_or_ge s.pc.toNat s.prog.length
  · obtain ⟨i, hi, hldur, hstur⟩ := h _ (List.getElem_mem hin)
    rw [step_of_entry (List.getElem?_eq_getElem hin) hi, Ne, exec_eq_fault_iff]
    rintro ⟨rt, rn, off, hload | hstore, -, -⟩
    · exact hldur rt rn off hload
    · exact hstur rt rn off hstore
  · rw [step_of_outside hout]
    nofun

end Sys2Proof.Machine
end

section
/-! The obligations of the exceptions family (60_exceptions.md). -/

namespace Sys2Proof.Machine

/-- Settles O39: no tick writes the program, so at the end of every run it is still one whose ticks do not
raise. -/
theorem programsWithoutLoadsAndStoresAreSafe : Obligations.ProgramsWithoutLoadsAndStoresAreSafe := by
  intro s hprog n t f hrun
  exact step_ne_fault (hrun.prog_eq.symm ▸ hprog) f

/-- Settles O16: the instructions that raise, then the two memory ports of the host. -/
theorem onlyLoadsAndStoresRaiseAlignmentError : Obligations.OnlyLoadsAndStoresRaiseAlignmentError :=
  ⟨exec_eq_fault_iff, fun s addr v f => ⟨memRead_eq_error_iff s.mem addr f,
    (s.hostSetMem_eq_error_iff addr v f).trans (memWrite_eq_error_iff s.mem addr v f)⟩⟩

/-- Settles O21: the outcome on the ports is KeepRunning after a commit, ShouldStop after a stop, and else
one of the two errors a tick raises. -/
theorem outcomeCodesAndPayloads : Obligations.OutcomeCodesAndPayloads := by
  intro s a ha
  cases hstep : step s with
  | next t =>
    have houtcome := State.transaction_outcome_of_next ha hstep
    obtain ⟨e, rfl⟩ | rfl := step_next s t hstep
    · have hrun : a.outcome = .keepRunning := by simpa [eq_comm] using houtcome
      simp [hrun, TickOutcome.code, TickOutcome.info]
    · have hstop : a.outcome = .shouldStop := by simpa [eq_comm] using houtcome
      simp [hstop, TickOutcome.code, TickOutcome.info]
  | fault f =>
    have houtcome := State.transaction_outcome_of_fault ha hstep
    obtain ⟨ea, rfl⟩ | ⟨w, rfl⟩ := step_fault hstep
    · simp [houtcome, TickOutcome.code, TickOutcome.info]
    · have hword : (w.zeroExtend 64).toNat = w.toNat := BitVec.toNat_setWidth_of_le (by decide)
      simp [houtcome, TickOutcome.code, TickOutcome.info, hword]
  | refused r => exact absurd hstep (step_not_refused s r)

end Sys2Proof.Machine
end

section
/-! SUPPORT. What a snapshot loads, said once, and that a saved state passes every check of the load
(70_reset_and_hazards.md R138, R142). -/

namespace Sys2Proof.Machine

/-! What loads -/

/-- The registers load exactly where they are the 31 of a register file (R138). -/
theorem loadRegs_eq_ok_iff (l : List Word) (r : RegFile) : loadRegs l = .ok r ↔ r.toList = l := by
  by_cases hl : l.length = 31
  · simp only [loadRegs, hl, dite_true, Except.ok.injEq]
    constructor <;> rintro rfl <;> rfl
  · simp only [loadRegs, hl, dite_false, reduceCtorEq, false_iff]
    rintro rfl
    exact hl r.length_toList

/-- A snapshot loads as a state exactly when each of its parts does (R138). -/
theorem Snapshot.load_eq_ok_iff (snap : Snapshot) (t : State) : snap.load = .ok t ↔
    t.regs.toList = snap.regs ∧ mappingOk snap.mem = true ∧ loadProgram snap.prog = .ok t.prog ∧
      t.pc = snap.pc ∧ t.mem = loadMemory snap.mem ∧ t.answer = none := by
  obtain ⟨regs, pc, mem, prog, answer⟩ := t
  rw [← loadRegs_eq_ok_iff, Snapshot.load]
  cases loadRegs snap.regs with
  | error e => simp
  | ok r =>
    by_cases hmap : mappingOk snap.mem = true
    · cases loadProgram snap.prog with
      | error e => simp [hmap]
      | ok p =>
        simp only [hmap, if_true, Except.ok.injEq, State.mk.injEq, true_and]
        tauto
    · simp [hmap]

/-- A snapshot that loads as no state is refused. -/
theorem Snapshot.load_refused {snap : Snapshot} (h : ∀ t, snap.load ≠ .ok t) :
    ∃ e, snap.load = .error e := by
  cases hload : snap.load with
  | ok t => exact absurd hload (h t)
  | error e => exact ⟨e, rfl⟩

/-- A record that loads is well formed, and is the record of the instruction it loads as (R138, D29). -/
theorem loadEntry_decoded {r : RawInstr} {e : Entry} (h : loadEntry (.decoded r) = .ok e) :
    r.wellFormed = true ∧ ∃ i, e = .decoded i ∧ record i = r := by
  cases hv : validate r with
  | error x => simp only [loadEntry, hv, reduceCtorEq] at h
  | ok i =>
    have hwf := wellFormed_of_validate hv
    obtain rfl : narrow r = i := by simpa [validate_wellFormed r hwf] using hv
    simp only [loadEntry, hv, Except.ok.injEq] at h
    exact ⟨hwf, narrow r, h.symm, record_narrow r hwf⟩

/-- A snapshot that loads has 31 register values (R138). -/
theorem Snapshot.regs_length_of_load {snap : Snapshot} {t : State} (h : snap.load = .ok t) :
    snap.regs.length = 31 := by
  obtain ⟨hregs, -⟩ := (snap.load_eq_ok_iff t).1 h
  exact hregs ▸ t.regs.length_toList

/-- A snapshot that loads holds well-formed records only (R138, D29). -/
theorem Snapshot.wellFormed_of_load {snap : Snapshot} {t : State} {r : RawInstr}
    (h : snap.load = .ok t) (hr : RawEntry.decoded r ∈ snap.prog) : r.wellFormed = true := by
  obtain ⟨-, -, hprog, -⟩ := (snap.load_eq_ok_iff t).1 h
  obtain ⟨k, hk⟩ := List.getElem?_of_mem hr
  obtain ⟨e, -, he⟩ := (loadProgram_getElem _ _ hprog).2 k _ hk
  exact (loadEntry_decoded he).1

/-! What a state saves -/

/-- The entry as a snapshot records it; `State.save_prog` ties it to the snapshot of a state. -/
def Entry.raw : Entry → RawEntry
  | .decoded i => .decoded (record i)
  | .word w => .word w

@[simp] theorem State.save_regs (s : State) : s.save.regs = s.regs.toList := rfl
@[simp] theorem State.save_pc (s : State) : s.save.pc = s.pc := rfl
@[simp] theorem State.save_mem (s : State) : s.save.mem = s.mem := rfl
@[simp] theorem State.save_prog (s : State) : s.save.prog = s.prog.map Entry.raw :=
  List.map_congr_left fun e _ => by cases e <;> rfl

/-- What an entry is recorded as loads as the entry (R60, R142). -/
theorem loadEntry_raw (e : Entry) : loadEntry e.raw = .ok e := by
  cases e with
  | word w => rfl
  | decoded i => rw [Entry.raw, loadEntry, Laws.Validation.all i]

/-- What a program is recorded as loads as the program (R142). -/
theorem loadProgram_map_raw (p : List Entry) : loadProgram (p.map Entry.raw) = .ok p := by
  induction p with
  | nil => rfl
  | cons e p ih => simp only [List.map_cons, loadProgram, loadEntry_raw, ih]

/-- Canonical memory is a mapping that loads (R44). -/
theorem Memory.mappingOk_of_wf {m : Memory} (h : m.wf = true) : mappingOk m = true := by
  refine (mappingOk_iff m).2 ⟨(m.used_pairwise h).imp Nat.ne_of_lt, ?_⟩
  induction m with
  | nil => simp
  | cons c m ih =>
    obtain ⟨hslot, -, -, hm⟩ := (Memory.wf_cons c.1 c.2 m).1 h
    exact List.forall_mem_cons.2 ⟨hslot, ih hm⟩

/-- Canonical memory loads as itself: its slots rise, so each goes to the front of those after it (R44). -/
theorem Memory.loadMemory_of_wf {m : Memory} (h : m.wf = true) : loadMemory m = m := by
  induction m with
  | nil => rfl
  | cons c m ih =>
    obtain ⟨-, hne, habove, hm⟩ := (Memory.wf_cons c.1 c.2 m).1 h
    calc loadMemory (c :: m) = (loadMemory m).set c.1 c.2 := rfl
      _ = Memory.set m c.1 c.2 := by rw [ih hm]
      _ = c :: m := Memory.set_below m c.1 c.2 habove hne

end Sys2Proof.Machine
end

section
/-! SUPPORT. What an iteration of the batch loop does, and everything a batch run can come to
(70_reset_and_hazards.md R144, R145). -/

namespace Sys2Proof.Machine

/-- The batch loop's test of a next state, in terms of the outcome it answered (R144). -/
theorem State.answeredStop_iff (s : State) : s.answeredStop = true ↔ s.lastOutcome = some .shouldStop :=
  beq_iff_eq

/-- A tick that answers KeepRunning is counted and the loop goes on (R145). -/
theorem batchLoop_of_keepRunning {s t : State} (left n : Nat) (h : step s = .next t)
    (hk : t.lastOutcome = some .keepRunning) : batchLoop (left + 1) n s = batchLoop left (n + 1) t := by
  have hgo : ¬ t.answeredStop = true := by simp [State.answeredStop_iff, hk]
  simp only [batchLoop, h, if_neg hgo]

/-- A tick that answers ShouldStop is not counted and ends the loop (R144). -/
theorem batchLoop_of_shouldStop {s t : State} (left n : Nat) (h : step s = .next t)
    (hk : t.lastOutcome = some .shouldStop) :
    batchLoop (left + 1) n s = { exit := .stopped, count := n, state := t } := by
  simp only [batchLoop, h, if_pos (t.answeredStop_iff.2 hk)]

/-- A tick that raises is not counted and ends the loop at the state it leaves (R144). -/
theorem batchLoop_of_fault {s : State} {f : Fault} (left n : Nat) (h : step s = .fault f) :
    batchLoop (left + 1) n s = { exit := .failed f s.prog[s.pc.toNat]?, count := n, state := s } := by
  simp only [batchLoop, h]

/-- A tick that raises has an entry to raise at: beyond the program it stops (R85). -/
theorem entry_isSome_of_step_fault {s : State} {f : Fault} (h : step s = .fault f) :
    s.prog[s.pc.toNat]?.isSome = true := by
  rw [Option.isSome_iff_ne_none]
  intro hout
  rw [step_of_outside (List.getElem?_eq_none_iff.1 hout)] at h
  cases h

/-- Everything the loop can come to: it runs `k` KeepRunning ticks to a state `u`, which uses up the
iterations, or the next tick, at `u`, stops or raises (R144). -/
theorem batchLoop_cases (left n : Nat) (s : State) : ∃ k u, Runs k s u ∧
    ((k = left ∧ batchLoop left n s = { exit := .limit, count := n + k, state := u }) ∨
      (k < left ∧ ∃ t, step u = .next t ∧ t.lastOutcome = some .shouldStop ∧
        batchLoop left n s = { exit := .stopped, count := n + k, state := t }) ∨
      (k < left ∧ ∃ f, step u = .fault f ∧
        batchLoop left n s =
          { exit := .failed f u.prog[u.pc.toNat]?, count := n + k, state := u })) := by
  induction left generalizing n s with
  | zero => exact ⟨0, s, .refl s, .inl ⟨rfl, rfl⟩⟩
  | succ left ih =>
    cases hstep : step s with
    | next t =>
      obtain ⟨e, rfl⟩ | rfl := step_next s t hstep
      · have hk := s.commit_lastOutcome e
        obtain ⟨k, u, hrun, hend⟩ := ih (n + 1) (s.commit e)
        refine ⟨k + 1, u, .tick hstep hk hrun, ?_⟩
        rw [batchLoop_of_keepRunning left n hstep hk]
        simpa only [Nat.add_right_cancel_iff, Nat.add_lt_add_iff_right, Nat.add_assoc,
          Nat.add_comm 1] using hend
      · exact ⟨0, s, .refl s, .inr (.inl ⟨Nat.succ_pos left, s.stop, hstep, s.stop_lastOutcome,
          batchLoop_of_shouldStop left n hstep s.stop_lastOutcome⟩)⟩
    | fault f =>
      exact ⟨0, s, .refl s, .inr (.inr ⟨Nat.succ_pos left, f, hstep, batchLoop_of_fault left n hstep⟩)⟩
    | refused r => exact absurd hstep (step_not_refused s r)

end Sys2Proof.Machine
end

section
/-! The obligations of the reset family (70_reset_and_hazards.md). -/

namespace Sys2Proof.Machine

/-- Settles O50: each part of the snapshot of a state passes the load's checks and comes back. -/
theorem snapshotRoundTrip : Obligations.SnapshotRoundTrip := by
  intro s hs
  refine ⟨{ s with answer := none }, (s.save.load_eq_ok_iff _).2 ⟨rfl, Memory.mappingOk_of_wf hs, ?_, rfl,
    (Memory.loadMemory_of_wf hs).symm, rfl⟩, rfl, rfl, rfl, rfl⟩
  rw [State.save_prog, loadProgram_map_raw]

/-- Settles O51: what a snapshot that loads is, part by part; the refusals are its contrapositive. -/
theorem badSnapshotsAreRefused : Obligations.BadSnapshotsAreRefused := by
  refine ⟨fun snap t hload => ?_, fun snap hcount => ?_, fun snap r hr hbad => ?_, fun snap hbad => ?_⟩
  · obtain ⟨hregs, hmap, hprog, hpc, hmem, -⟩ := (snap.load_eq_ok_iff t).1 hload
    obtain ⟨hlen, hentry⟩ := loadProgram_getElem _ _ hprog
    refine ⟨Snapshot.regs_length_of_load hload, fun r => Snapshot.wellFormed_of_load hload, hregs, hpc,
      hmem ▸ loadMemory_get snap.mem hmap, hmem ▸ loadMemory_unlisted snap.mem hmap, hlen,
      fun k w hk => ?_, fun k r hk => ?_⟩
    · obtain ⟨e, hke, he⟩ := hentry k _ hk
      cases he
      exact hke
    · obtain ⟨e, hke, he⟩ := hentry k _ hk
      obtain ⟨-, i, rfl, hi⟩ := loadEntry_decoded he
      exact ⟨i, hke, hi⟩
  · exact Snapshot.load_refused fun t hload => hcount (Snapshot.regs_length_of_load hload)
  · exact Snapshot.load_refused fun t hload => by simp [Snapshot.wellFormed_of_load hload hr] at hbad
  · refine Snapshot.load_refused fun t hload => ?_
    obtain ⟨-, hmap, -⟩ := (snap.load_eq_ok_iff t).1 hload
    obtain ⟨hnodup, hslots⟩ := (mappingOk_iff snap.mem).1 hmap
    obtain htwice | ⟨c, hc, hbeyond⟩ := hbad
    · exact htwice hnodup
    · exact absurd (hslots c hc) (Nat.not_lt.2 hbeyond)

/-- Settles O52: the three ends of the loop, from a count of 0. -/
theorem batchCountsKeepRunningTicks : Obligations.BatchCountsKeepRunningTicks := by
  intro s maxIter
  obtain ⟨k, u, hrun, ⟨hk, hend⟩ | ⟨hk, t, hstep, hstop, hend⟩ | ⟨hk, f, hstep, hend⟩⟩ :=
    batchLoop_cases maxIter 0 s <;> rw [Nat.zero_add] at hend <;> rw [State.batch, hend]
  · exact ⟨u, hrun, hk, rfl⟩
  · exact ⟨u, hrun, hk, ⟨t, hstep, hstop⟩, hstep⟩
  · exact ⟨u, hrun, hk, hstep, rfl, rfl, entry_isSome_of_step_fault hstep⟩

/-- Settles O36: the empty program of reset has no entry at any pc. -/
theorem firstTickAfterResetStops : Obligations.FirstTickAfterResetStops :=
  ⟨State.reset.stop, step_of_outside (Nat.zero_le _), State.reset.stop_lastOutcome, State.reset.stop_regs,
    State.reset.stop_pc, State.reset.stop_mem, State.reset.stop_prog⟩

end Sys2Proof.Machine
end
